-- ==== Sys2Proof/Word.lean ====
section
/-! DEFINITION. The machine's one word type (rule R6: XLEN = 8, "no variable bus width beyond 8 bits"). -/

namespace Sys2Proof

/-- A general register, a memory cell, an operand byte, the program counter or the flags register:
an unsigned 8-bit value, bit 0 the least significant (rules R16, R20, R28, R32). -/
abbrev Byte := BitVec 8

end Sys2Proof
end

