-- ==== Sys2Proof/Config.lean ====
section
/-! DEFINITION. What is fixed for one machine: the parameters of rule R6 that some rule depends on. A
configuration is plain data that a state carries (DESIGN CHOICE, safe: assumption 1), so a statement about every state is a
statement about every configuration. -/

namespace Sys2Proof

/-- The sixteen mnemonics of rule R84: the keys of the dispatch table. -/
inductive Mnemonic where
  | ldi | st | add | mul | cmp | push | pop | call | ret | jmp | jeq | jne | prn | pra | iret | hlt
  deriving DecidableEq, Repr

/-- Every mnemonic once, in the order of spec/opcode_table.json. -/
def Mnemonic.all : List Mnemonic :=
  [.ldi, .st, .add, .mul, .cmp, .push, .pop, .call, .ret, .jmp, .jeq, .jne, .prn, .pra, .iret, .hlt]

/-- How many operand bytes the instruction has (rule R95: 2, 1 or 0 by instruction). -/
def Mnemonic.operandCount : Mnemonic → Nat
  | .ldi | .st | .add | .mul | .cmp => 2
  | .push | .pop | .call | .jmp | .jeq | .jne | .prn | .pra => 1
  | .ret | .iret | .hlt => 0

/-- `OPC` (rules R6, R85): the opcode byte of each mnemonic, a configuration table. -/
structure Opc where
  ldi : Byte
  st : Byte
  add : Byte
  mul : Byte
  cmp : Byte
  push : Byte
  pop : Byte
  call : Byte
  ret : Byte
  jmp : Byte
  jeq : Byte
  jne : Byte
  prn : Byte
  pra : Byte
  iret : Byte
  hlt : Byte
  deriving DecidableEq, Repr

/-- The table's entry for a mnemonic. -/
def Opc.byte (o : Opc) : Mnemonic → Byte
  | .ldi => o.ldi
  | .st => o.st
  | .add => o.add
  | .mul => o.mul
  | .cmp => o.cmp
  | .push => o.push
  | .pop => o.pop
  | .call => o.call
  | .ret => o.ret
  | .jmp => o.jmp
  | .jeq => o.jeq
  | .jne => o.jne
  | .prn => o.prn
  | .pra => o.pra
  | .iret => o.iret
  | .hlt => o.hlt

/-- The constraints of rule R95 on an opcode table: pairwise distinct bytes, the top two bits of each
equal to the operand count (rule R82), and the four values that rule R84 makes normative. Rules R90 and R248
call 0x00 unknown, but rules R85 and R95 let a table give it to RET or IRET; such a table is legal here
(DESIGN CHOICE, safe: assumption 23). -/
abbrev Opc.Legal (o : Opc) : Prop :=
  (Mnemonic.all.map o.byte).Nodup ∧
  (∀ m ∈ Mnemonic.all, (o.byte m >>> 6).toNat = m.operandCount) ∧
  o.ldi = 0x99 ∧ o.mul = 0xAA ∧ o.prn = 0x43 ∧ o.hlt = 0x01

/-- The configuration of one machine (rule R6). `TICK_PERIOD` and `TIMER_PERIOD` are not here,
since no rule depends on them (DESIGN CHOICE, safe: assumption 14), and `OUT_RENDER` is an argument of the
rendering in Machine/Output.lean (assumption 13). -/
structure Config where
  /-- `MEM_SIZE`: the number of memory cells (rule R51). -/
  memSize : Nat
  /-- `CYCLE_CEILING`: the watchdog's ceiling (rule R101). -/
  cycleCeiling : Nat
  /-- `OPC`: the opcode assignment (rule R85). -/
  opc : Opc
  deriving DecidableEq, Repr

/-- The configurations the hardware admits: `1 <= MEM_SIZE <= 256` (rule R51), `CYCLE_CEILING >= 1`
(rule R6) and an opcode table that meets rule R95. -/
abbrev Config.Legal (c : Config) : Prop :=
  1 ≤ c.memSize ∧ c.memSize ≤ 256 ∧ 1 ≤ c.cycleCeiling ∧ c.opc.Legal

end Sys2Proof
end

