-- ==== Sys2Proof/Syntax.lean ====
section
/-! DEFINITION. The instruction set: the sixteen instructions of rule R84 and nothing else, one
constructor per row of spec/opcode_table.json, in the table's order. -/

namespace Sys2Proof

/-- An instruction with its operand bytes RAW, as the decoder hands them to the handler
(rules R83, R86, R104): `a` and `b` are whole bytes used as register indices, so 8..255 are values an
instruction can hold; what they do is the handler's business (rule R183). -/
inductive Instr where
  /-- `LDI regA, immediate` (rule R120). -/
  | ldi (a imm : Byte)
  /-- `ST regA, regB` (rule R121). -/
  | st (a b : Byte)
  /-- `ADD regA, regB` (rule R131). -/
  | add (a b : Byte)
  /-- `MUL regA, regB` (rule R133). -/
  | mul (a b : Byte)
  /-- `CMP regA, regB` (rule R135). -/
  | cmp (a b : Byte)
  /-- `PUSH regA` (rule R142). -/
  | push (a : Byte)
  /-- `POP regA` (rule R143). -/
  | pop (a : Byte)
  /-- `CALL regA` (rule R150). -/
  | call (a : Byte)
  /-- `RET` (rule R151). -/
  | ret
  /-- `JMP regA` (rule R152). -/
  | jmp (a : Byte)
  /-- `JEQ regA` (rule R153). -/
  | jeq (a : Byte)
  /-- `JNE regA` (rule R154). -/
  | jne (a : Byte)
  /-- `PRN regA` (rule R165). -/
  | prn (a : Byte)
  /-- `PRA regA` (rule R166). -/
  | pra (a : Byte)
  /-- `IRET` (rule R167). -/
  | iret
  /-- `HLT` (rule R168). -/
  | hlt
  deriving DecidableEq, Repr

end Sys2Proof
end

