-- ==== Sys2Proof/WellFormed.lean ====
section
/-! DEFINITION. Which instructions name only registers that exist (rules R20, R86). Every other
instruction still decodes and runs: its bad index faults when, and only when, the handler uses it. -/

namespace Sys2Proof

/-- The operand bytes that an instruction uses as register indices (rules R86, R87; formats of R81). -/
def Instr.registerOperands : Instr → List Byte
  | .ldi a _ => [a]
  | .st a b => [a, b]
  | .add a b => [a, b]
  | .mul a b => [a, b]
  | .cmp a b => [a, b]
  | .push a => [a]
  | .pop a => [a]
  | .call a => [a]
  | .ret => []
  | .jmp a => [a]
  | .jeq a => [a]
  | .jne a => [a]
  | .prn a => [a]
  | .pra a => [a]
  | .iret => []
  | .hlt => []

/-- Every register operand is an index 0..7 (rule R86: "Values 0..7 name R0..R7"). -/
abbrev Instr.WellFormed (i : Instr) : Prop := ∀ r ∈ i.registerOperands, r.toNat < 8

end Sys2Proof
end

