-- ==== Sys2Proof/Decode.lean ====
section
/-! DEFINITION. The decoder (rules R80-R91, R104), total on any bytes and rejecting by name, and after it
the encoder. Both work for every opcode table; `Opc.default` holds the default bytes of rule R85. -/

namespace Sys2Proof

/-- The default opcode bytes: LDI, MUL, PRN and HLT are normative (rule R84); the other twelve are the
defaults of rule R85 (PRESUMED, unsafe for binaries: decision D3 of the spec, from general knowledge;
assumption 4). -/
def Opc.default : Opc where
  ldi := 0x99
  st := 0x9A
  add := 0xA8
  mul := 0xAA
  cmp := 0xA0
  push := 0x4D
  pop := 0x4C
  call := 0x48
  ret := 0x09
  jmp := 0x50
  jeq := 0x51
  jne := 0x52
  prn := 0x43
  pra := 0x42
  iret := 0x0B
  hlt := 0x01

/-- Why bytes are no instruction. -/
inductive DecodeRefusal where
  /-- The opcode byte is not one of the sixteen of the table (rule R90). -/
  | unknownOpcode (opcode : Byte)
  /-- The list ends before the instruction does; never the machine's case, which fetches three bytes
  (rule R83). -/
  | truncated
  deriving DecidableEq, Repr

/-- `count = opcode >> 6`, the operand count that the opcode byte carries (rules R80, R82). -/
def opcodeCount (opcode : Byte) : Nat := (opcode >>> 6).toNat

/-- The dispatch table's entry for an opcode byte: the whole byte is matched (rules R88, R89). -/
def Opc.lookup (o : Opc) (opcode : Byte) : Option Mnemonic :=
  Mnemonic.all.find? fun m => decide (o.byte m = opcode)

/-- The instruction of a mnemonic with its operand bytes; a mnemonic with fewer operands ignores the
rest (rule R83). -/
def Mnemonic.instr (m : Mnemonic) (a b : Byte) : Instr :=
  match m with
  | .ldi => .ldi a b
  | .st => .st a b
  | .add => .add a b
  | .mul => .mul a b
  | .cmp => .cmp a b
  | .push => .push a
  | .pop => .pop a
  | .call => .call a
  | .ret => .ret
  | .jmp => .jmp a
  | .jeq => .jeq a
  | .jne => .jne a
  | .prn => .prn a
  | .pra => .pra a
  | .iret => .iret
  | .hlt => .hlt

/-- Decodes the instruction at the head of a byte list, opcode first (rule R56), and returns what
follows it. -/
def decodeBytesWith (o : Opc) : List Byte → Except DecodeRefusal (Instr × List Byte)
  | [] => .error .truncated
  | opcode :: rest =>
    match o.lookup opcode with
    | none => .error (.unknownOpcode opcode)
    | some m =>
      match m.operandCount, rest with
      | 0, rest => .ok (m.instr 0 0, rest)
      | 1, a :: rest => .ok (m.instr a 0, rest)
      | 2, a :: b :: rest => .ok (m.instr a b, rest)
      | _, _ => .error .truncated

/-- Decodes the three bytes that a fetch always reads (rules R83, R103, R104). -/
def decodeWith (o : Opc) (opcode a b : Byte) : Except DecodeRefusal Instr :=
  match decodeBytesWith o [opcode, a, b] with
  | .ok (i, _) => .ok i
  | .error r => .error r

/-- The decoder of a machine with the default opcode table. -/
def decode (opcode a b : Byte) : Except DecodeRefusal Instr := decodeWith Opc.default opcode a b

/-- The dispatch-table key of an instruction. -/
def Instr.mnemonic : Instr → Mnemonic
  | .ldi _ _ => .ldi
  | .st _ _ => .st
  | .add _ _ => .add
  | .mul _ _ => .mul
  | .cmp _ _ => .cmp
  | .push _ => .push
  | .pop _ => .pop
  | .call _ => .call
  | .ret => .ret
  | .jmp _ => .jmp
  | .jeq _ => .jeq
  | .jne _ => .jne
  | .prn _ => .prn
  | .pra _ => .pra
  | .iret => .iret
  | .hlt => .hlt

/-- The operand bytes of an instruction in the order they are stored (formats F0, F1, F2 of rule R81). -/
def Instr.operandBytes : Instr → List Byte
  | .ldi a imm => [a, imm]
  | .st a b => [a, b]
  | .add a b => [a, b]
  | .mul a b => [a, b]
  | .cmp a b => [a, b]
  | .push a => [a]
  | .pop a => [a]
  | .call a => [a]
  | .ret => []
  | .jmp a => [a]
  | .jeq a => [a]
  | .jne a => [a]
  | .prn a => [a]
  | .pra a => [a]
  | .iret => []
  | .hlt => []

/-- The instruction's operand count (rule R95). -/
def Instr.operandCount (i : Instr) : Nat := i.mnemonic.operandCount

/-- The instruction's bytes at ascending addresses: the opcode byte, then the operand bytes
(rules R80, R81). -/
def encodeWith (o : Opc) (i : Instr) : List Byte := o.byte i.mnemonic :: i.operandBytes

/-- The encoder of a machine with the default opcode table. -/
def encode (i : Instr) : List Byte := encodeWith Opc.default i

/-- Byte `k` of an instruction whose bits are numbered as spec/opcode_table.json numbers them: byte 0,
the opcode, is bits 7..0; every bit from `nbits` up is 0. -/
def tableByte (nbits w k : Nat) : Byte := BitVec.ofNat 8 (w % 2 ^ nbits / 256 ^ k)

/-- What the decoder reads from an instruction whose table bits are `w`. -/
def decodeTableWord (nbits w : Nat) : Option Instr :=
  match decode (tableByte nbits w 0) (tableByte nbits w 1) (tableByte nbits w 2) with
  | .ok i => some i
  | .error _ => none

end Sys2Proof
end

