-- ==== Sys2Proof/Machine/Defaults.lean ====
section
/-! DEFINITION. The default configuration and the fixed addresses of rule R6, and the reset contents of
the register file. -/

namespace Sys2Proof.Machine

/-- `SP_INIT`: the reset value of R7/SP (rules R6, R27). -/
def spInit : Byte := 0xF4

/-- `IVT_BASE`: the address of vector 0; the vector of source n is at `IVT_BASE + n` (rules R6, R61). -/
def ivtBase : Nat := 0xF8

/-- The general registers after reset: R0..R6 are 0 (so IM = IS = 0) and R7/SP is 0xF4 (rule R42). -/
def resetRegs : Vector Byte 8 := #v[0, 0, 0, 0, 0, 0, 0, spInit]

/-- The configuration of `State.reset`: `MEM_SIZE` 256 and the default opcodes are the spec's defaults
(rules R6, R85); `CYCLE_CEILING` is OPEN in the spec, and the number here is a DESIGN CHOICE, unsafe, that
no statement rests on (assumption 2). -/
def defaultConfig : Config where
  memSize := 256
  cycleCeiling := 1000000
  opc := Opc.default

end Sys2Proof.Machine
end

