-- ==== Sys2Proof/Machine/State.lean ====
section
/-! DEFINITION. The machine's whole state as plain data (rules R20-R43), the reasons a step can stop, and
the state right after reset. -/

namespace Sys2Proof.Machine

/-- The run state (rule R38). -/
inductive RunState where
  /-- Constructed, clock not started. -/
  | idle
  /-- Both periodic sources active. -/
  | running
  /-- Clock stopped by HLT, an unknown opcode or the watchdog. -/
  | halted
  /-- A fatal fault aborted the run. -/
  | faulted
  deriving DecidableEq, Repr

/-- A name for a host continuation registered as the halt callback (rule R39); what the continuation does
is outside the core (rule R12), so only its identity is data (DESIGN CHOICE, safe: assumption 10). -/
abbrev Callback := Nat

/-- An output event (rule R13). -/
inductive Event where
  /-- PRN: the decimal value of a register. -/
  | prn (v : Byte)
  /-- PRA: the character whose ASCII code is the register's value. -/
  | pra (c : Byte)
  /-- The report of an unknown opcode, with the address it was fetched from. -/
  | decodeError (opcode pc : Byte)
  deriving DecidableEq, Repr

/-- One atomic step of one of the three agents (rule R15): the CPU, the timer, the host. -/
inductive Move where
  /-- The instruction clock fires: the CPU performs one cycle (rules R9, R100). -/
  | tick
  /-- The timer fires (rules R10, R196). -/
  | timer
  /-- The host writes memory directly, used only for loading (rules R11, R232). -/
  | poke (addr : Nat) (v : Byte)
  /-- The host registers a halt callback (rule R233). -/
  | registerHalt (k : Callback)
  /-- The host starts the clock (rule R234). -/
  | start
  deriving DecidableEq, Repr

/-- Memory (rule R35) as its cells that differ from what an unlisted cell reads as, addresses rising. -/
abbrev Memory := List Host.Cell

/-- The state. IM, IS and SP are registers 5, 6 and 7 of `regs` and have no storage of their own
(rule R24). -/
structure State where
  /-- The configuration this machine was constructed with; no step writes it (rule R6; DESIGN CHOICE, safe: assumption 1). -/
  cfg : Config
  /-- R0..R7 (rule R20). -/
  regs : Vector Byte 8
  /-- PC (rule R28). -/
  pc : Byte
  /-- FL (rule R32). -/
  fl : Byte
  /-- The memory (rule R35), the interrupt vector table in it (rule R36). -/
  mem : Memory
  /-- The cycle counter, an unbounded natural (rule R37). -/
  cycles : Nat
  /-- The run state (rule R38). -/
  run : RunState
  /-- The halt-callback registration (rule R39). -/
  onHalt : Option Callback
  /-- The output list, oldest event first (rule R40). -/
  out : List Event
  /-- The model's record of the halt notifications made (rule R12): the callbacks invoked, oldest first. -/
  invoked : List Callback
  /-- The model's own: the agents' coming moves, next first (rule R15; DESIGN CHOICE, unsafe on the run from reset:
  assumption 5). -/
  moves : List Move
  deriving DecidableEq, Repr

/-- A core right after `construct` (rules R42, R230) with a configuration and a memory image. -/
def State.construct (cfg : Config) (mem : Memory) : State where
  cfg := cfg
  regs := resetRegs
  pc := 0
  fl := 0
  mem := mem
  cycles := 0
  run := .idle
  onHalt := none
  out := []
  invoked := []
  moves := []

/-- The machine right after reset: the default configuration and a memory with nothing listed. -/
def State.reset : State := State.construct defaultConfig []

/-- The five kinds of error, in the order that rule R187 fixes for a model's enumeration (decision D11). -/
inductive ErrorKind where
  | outOfBoundsAccess
  | invalidRegisterIndex
  | unknownOpcode
  | invalidALUOperation
  | watchdogExceeded
  deriving DecidableEq, Repr

/-- Why the machine stops. The three fatal faults of rule R181 carry the state they leave, its run state
FAULTED; the spec makes no claim about the rest of that state (decision D10; DESIGN CHOICE, safe:
assumption 7). -/
inductive Fault where
  /-- Raised by a memory access at `addr >= MEM_SIZE`, by an advance of PC past 0xFF and by a `poke` out
  of range (rule R182). Safe: the model stops where the spec says the run aborts. -/
  | outOfBoundsAccess (addr : Nat) (left : State)
  /-- Raised by a handler that uses an operand byte above 7 as a register index (rule R183). Safe: the
  model stops where the spec says the run aborts. -/
  | invalidRegisterIndex (index : Byte) (left : State)
  /-- Raised by the ALU for an operation name other than ADD, MUL and CMP; no instruction passes one
  (rule R184). Safe: it is unreachable from a program. -/
  | invalidALUOperation (name : String) (left : State)
  /-- Raised by `step` when the agent whose move is next has no step in the run state: any move of a
  HALTED or FAULTED machine (rule R236), a tick or a timer firing before `start` (rules R9, R196), a
  host operation after it (decision D19). Safe: a stuck state; UNVERIFIED and unsafe only against a host
  that pokes a running machine (assumption 8). -/
  | noStep (move : Move) (run : RunState)
  deriving DecidableEq, Repr

/-- Why the model gives a step no meaning. -/
inductive Refusal where
  /-- Raised by an arm of `exec` whose instruction has no meaning yet; no arm is such. Safe. -/
  | notModelled (mnemonic : String)
  /-- Raised by `start` on a configuration that the hardware does not admit (rule R51, decision D1: "A
  configuration above 256 is refused"; rule R95). Safe: nothing runs (assumption 9). -/
  | illegalConfiguration
  deriving DecidableEq, Repr

end Sys2Proof.Machine
end

