-- ==== Sys2Proof/Machine/Ops.lean ====
section
/-! DEFINITION. The named operations over the state: updates of one field, the memory port, faults, the
stack primitives, the PC advance, output, `Halt()`, and taking an interrupt beside the return from it. -/

namespace Sys2Proof.Machine

/-! ### Outcomes of an operation -/

/-- What an operation answers: a value, a fault or a refusal. -/
abbrev Res (α : Type) := Host.Outcome α Fault Refusal

/-- Statements "are performed in the order written; a `raise` abandons the rest" (rule R17). -/
def andThen {α β : Type} (x : Res α) (f : α → Res β) : Res β :=
  match x with
  | .next v => f v
  | .fault r => .fault r
  | .refused r => .refused r

/-! ### Updates of one field -/

/-- IM is register 5 (rule R24). -/
abbrev rIM : Fin 8 := 5
/-- IS is register 6 (rule R24). -/
abbrev rIS : Fin 8 := 6
/-- SP is register 7 (rule R24). -/
abbrev rSP : Fin 8 := 7

/-- The content of Ri (rule R20). -/
def State.reg (s : State) (i : Fin 8) : Byte := s.regs.get i

/-- Writes Ri and nothing else (rule R20). -/
def State.setReg (s : State) (i : Fin 8) (v : Byte) : State := { s with regs := s.regs.set i v }

/-- The interrupt mask, a view of R5 (rules R24, R25). -/
def State.im (s : State) : Byte := s.reg rIM

/-- The interrupt status, a view of R6 (rules R24, R26). -/
def State.is (s : State) : Byte := s.reg rIS

/-- The stack pointer, a view of R7 (rules R24, R27). -/
def State.sp (s : State) : Byte := s.reg rSP

/-- `pc <- target` (rule R17). -/
def State.setPc (s : State) (target : Byte) : State := { s with pc := target }

/-- Writes the whole flags byte (rule R33). -/
def State.setFl (s : State) (v : Byte) : State := { s with fl := v }

/-- Replaces the memory. -/
def State.setMem (s : State) (m : Memory) : State := { s with mem := m }

/-- Writes the cycle counter (rule R37). -/
def State.setCycles (s : State) (n : Nat) : State := { s with cycles := n }

/-- Writes the run state (rule R38). -/
def State.setRun (s : State) (r : RunState) : State := { s with run := r }

/-- Writes the halt-callback registration (rule R39). -/
def State.setOnHalt (s : State) (k : Option Callback) : State := { s with onHalt := k }

/-- Writes the record of halt notifications (rule R12). -/
def State.setInvoked (s : State) (ks : List Callback) : State := { s with invoked := ks }

/-- Writes the agents' coming moves. -/
def State.setMoves (s : State) (ms : List Move) : State := { s with moves := ms }

/-- `Emit(e)`: appends an event to the output list (rules R13, R17). -/
def State.emit (s : State) (e : Event) : State := { s with out := s.out ++ [e] }

/-! ### Memory cells -/

/-- What a cell that is not listed reads as (`MEM_INIT` is OPEN in the spec; DESIGN CHOICE, unsafe:
assumption 3). -/
def Memory.unlisted : Byte := 0

/-- The content of a cell. -/
def Memory.read : Memory → Nat → Byte
  | [], _ => Memory.unlisted
  | (a, v) :: m, addr => if a = addr then v else Memory.read m addr

/-- The memory without a listed cell. -/
def Memory.removeCell (m : Memory) (addr : Nat) : Memory := m.filter fun c => decide (c.1 ≠ addr)

/-- The memory with one more listed cell, before the first cell of a higher address. -/
def Memory.addCell : Memory → Nat → Byte → Memory
  | [], addr, v => [(addr, v)]
  | (a, x) :: m, addr, v =>
    if addr < a then (addr, v) :: (a, x) :: m else (a, x) :: Memory.addCell m addr v

/-- The memory with one cell written, in the canonical form. -/
def Memory.write (m : Memory) (addr : Nat) (v : Byte) : Memory :=
  if v = Memory.unlisted then m.removeCell addr else (m.removeCell addr).addCell addr v

/-- The canonical form: addresses strictly rising, no cell listed that holds what an unlisted cell reads as. -/
abbrev Memory.wf (m : Memory) : Prop :=
  m.Pairwise (fun c d => c.1 < d.1) ∧ ∀ c ∈ m, c.2 ≠ Memory.unlisted

/-! ### Fatal faults and the memory port -/

/-- `raise <Fault>(info)`: the cycle stops here, the changes made before stand, and the run state is
FAULTED (rules R17, R181). -/
def raise {α : Type} (fault : State → Fault) (s : State) : Res α := .fault (fault (s.setRun .faulted))

/-- The ordinals 1..5 of the error kinds (rule R187); they appear nowhere in state or output. -/
def ErrorKind.code : ErrorKind → Nat
  | .outOfBoundsAccess => 1
  | .invalidRegisterIndex => 2
  | .unknownOpcode => 3
  | .invalidALUOperation => 4
  | .watchdogExceeded => 5

/-- The error kind of a fatal fault, as the host receives it (rule R188); none of a stuck state. -/
def Fault.kind : Fault → Option ErrorKind
  | .outOfBoundsAccess _ _ => some .outOfBoundsAccess
  | .invalidRegisterIndex _ _ => some .invalidRegisterIndex
  | .invalidALUOperation _ _ => some .invalidALUOperation
  | .noStep _ _ => none

/-- `MemRead(addr, 1)` (rules R17, R52). -/
def memRead (addr : Nat) (s : State) : Res Byte :=
  if addr < s.cfg.memSize then .next (s.mem.read addr) else raise (.outOfBoundsAccess addr) s

/-- `MemWrite(addr, 1, v)` (rules R17, R53). -/
def memWrite (addr : Nat) (v : Byte) (s : State) : Res State :=
  if addr < s.cfg.memSize then .next (s.setMem (s.mem.write addr v))
  else raise (.outOfBoundsAccess addr) s

/-! ### The stack primitives -/

/-- SP as a push leaves it: one lower, modulo 256 (rules R140, R145; decision D4, UNVERIFIED,
unsafe: assumption 12). -/
def decSp (s : State) : State := s.setReg rSP (s.sp - 1)

/-- SP as a pop leaves it: one higher, modulo 256 (rules R141, R145; decision D4, UNVERIFIED,
unsafe: assumption 12). -/
def incSp (s : State) : State := s.setReg rSP (s.sp + 1)

/-- `Push(v)` (rules R17, R140): SP is decremented first and the byte stored at the new SP. -/
def push (v : Byte) (s : State) : Res State := memWrite (decSp s).sp.toNat v (decSp s)

/-- `Pop()` (rules R17, R141): the byte at SP is read first and SP incremented afterwards. -/
def pop (s : State) : Res (Byte × State) :=
  andThen (memRead s.sp.toNat s) fun t => .next (t, incSp s)

/-- One push for each byte, in the list's order. -/
def pushAll : List Byte → State → Res State
  | [], s => .next s
  | v :: vs, s => andThen (push v s) (pushAll vs)

/-- One pop into each register, in the list's order: the loop of IRET (rule R167). -/
def popInto : List (Fin 8) → State → Res State
  | [], s => .next s
  | i :: is, s => andThen (pop s) fun p => popInto is (p.2.setReg i p.1)

/-! ### The end of a handler -/

/-- The generic advance `pc <- pc + 1 + count` after a handler that returned false (rule R106); past 0xFF
it raises OutOfBoundsAccess and does not write PC (rule R107; decision D2, UNVERIFIED, safe: assumption 11). -/
def advance (count : Nat) (s : State) : Res State :=
  if s.pc.toNat + 1 + count ≤ 0xFF then .next (s.setPc (BitVec.ofNat 8 (s.pc.toNat + 1 + count)))
  else raise (.outOfBoundsAccess (s.pc.toNat + 1 + count)) s

/-- `Halt()` (rule R204): RUNNING becomes HALTED and the registered callback, if any, is invoked. "Stopping
the clock is immediate and idempotent": in any other run state it changes nothing. -/
def halt (s : State) : State :=
  if s.run = .running then (s.setRun .halted).setInvoked (s.invoked ++ s.onHalt.toList) else s

/-! ### Interrupts -/

/-- `pending = IM & IS` (rule R102). -/
def State.pending (s : State) : Byte := s.im &&& s.is

/-- The lowest-indexed set bit of `pending`, bit 0 checked first (rule R193); none when no bit is set. -/
def lowestSource (pending : Byte) : Option (Fin 8) :=
  [0, 1, 2, 3, 4, 5, 6, 7].find? fun n : Fin 8 => pending.getLsbD n

/-- Step 1 of interrupt entry: IM and IS are both set to 0 (rule R194). -/
def clearMaskAndStatus (s : State) : State := (s.setReg rIM 0).setReg rIS 0

/-- The bytes that interrupt entry pushes, in the order they are pushed: PC, FL, R0..R6 (rules R194,
R199; conflicts C1, C2). R5 and R6 are 0 by then (DEDUCED by the spec, unsafe: assumption 21). -/
def interruptFrame (s : State) : List Byte :=
  [s.pc, s.fl, s.reg 0, s.reg 1, s.reg 2, s.reg 3, s.reg 4, s.reg 5, s.reg 6]

/-- `InterruptEntry` for source `n` (rules R194, R195): IM and IS cleared, the frame pushed, and PC loaded
from the vector cell, which is read after the pushes. -/
def interruptEntry (n : Fin 8) (s : State) : Res State :=
  andThen (pushAll (interruptFrame (clearMaskAndStatus s)) (clearMaskAndStatus s)) fun t =>
  andThen (memRead (ivtBase + n.val) t) fun v => .next (t.setPc v)

/-- The return from an interrupt (rules R167, R200): R6 down to R0, FL and PC popped, then IM = 1. -/
def interruptReturn (s : State) : Res State :=
  andThen (popInto [6, 5, 4, 3, 2, 1, 0] s) fun t =>
  andThen (pop t) fun f =>
  andThen (pop (f.2.setFl f.1)) fun p => .next ((p.2.setPc p.1).setReg rIM 1)

end Sys2Proof.Machine
end

