-- ==== Sys2Proof/Machine/Cycle.lean ====
section
/-! DEFINITION. The step of each agent (rule R15): the CPU's cycle (rule R100), the timer (rule R196), the
host's lifecycle operations (rules R230-R236), and the schedule that says whose move is next. The handlers
are an argument, so that Step.lean only ties this to `exec`. -/

namespace Sys2Proof.Machine

/-- Fetch: the reads at `pc`, `pc + 1`, `pc + 2`, in that order, addresses without wrap (rules R71, R103;
decision D5, UNVERIFIED, safe: assumption 19). -/
def fetch (s : State) : Res (Byte × Byte × Byte) :=
  andThen (memRead s.pc.toNat s) fun ir =>
  andThen (memRead (s.pc.toNat + 1) s) fun a =>
  andThen (memRead (s.pc.toNat + 2) s) fun b => .next (ir, a, b)

/-- Fetch, decode and dispatch; an unknown opcode is reported and forces a halt, PC kept
(rules R103-R105, R108; decision D6, UNVERIFIED, unsafe: assumption 16). -/
def fetchAndRun (handler : Instr → State → Res State) (s : State) : Res State :=
  andThen (fetch s) fun w =>
  match decodeWith s.cfg.opc w.1 w.2.1 w.2.2 with
  | .ok i => handler i s
  | .error _ => .next (halt (s.emit (.decodeError w.1 s.pc)))

/-- What a cycle does once it is counted and the watchdog has not fired: an interrupt entry in place of an
instruction, or an instruction (rules R102, R109). -/
def interruptOrRun (handler : Instr → State → Res State) (s : State) : Res State :=
  match lowestSource s.pending with
  | some n => interruptEntry n s
  | none => fetchAndRun handler s

/-- The cycle as the watchdog sees it: the counter is incremented first (rule R101). -/
def counted (s : State) : State := s.setCycles (s.cycles + 1)

/-- One cycle of the CPU (rules R100, R101, R110): the count that reaches the ceiling still works (decision D7,
UNVERIFIED, unsafe: assumption 17). -/
def cycleWith (handler : Instr → State → Res State) (s : State) : Res State :=
  if s.cfg.cycleCeiling < (counted s).cycles then .next (halt (counted s))
  else interruptOrRun handler (counted s)

/-- The error kind that a cycle meets, if any (rules R180, R185-R187): a forced halt has its kind, although the
cycle answers a next state, and a fatal fault that of the fault. -/
def cycleErrorWith (handler : Instr → State → Res State) (s : State) : Option ErrorKind :=
  if s.cfg.cycleCeiling < (counted s).cycles then some .watchdogExceeded
  else
    match cycleWith handler s with
    | .fault f => f.kind
    | .refused _ => none
    | .next _ =>
      if s.pending = 0 ∧ s.cfg.opc.lookup (s.mem.read s.pc.toNat) = none then some .unknownOpcode else none

/-- The timer's step: bit 0 of IS is set, masked or not (rule R196). -/
def timerFire (s : State) : State := s.setReg rIS (s.is ||| 1)

/-- `start` (rule R234), refused on a configuration the hardware does not admit (rules R51, R95;
DESIGN CHOICE, safe: assumption 9). -/
def startClock (s : State) : Res State :=
  if s.cfg.Legal then .next (s.setRun .running) else .refused .illegalConfiguration

/-- The move in the run state that admits it, or a stuck state (rules R9, R196, R236; decision D19,
UNVERIFIED: assumption 8). -/
def onlyIn (r : RunState) (m : Move) (x : Res State) (s : State) : Res State :=
  if s.run = r then x else .fault (.noStep m s.run)

/-- One move of one agent. -/
def perform (handler : Instr → State → Res State) (m : Move) (s : State) : Res State :=
  match m with
  | .tick => onlyIn .running m (cycleWith handler s) s
  | .timer => onlyIn .running m (.next (timerFire s)) s
  | .poke addr v => onlyIn .idle m (memWrite addr v s) s
  | .registerHalt k => onlyIn .idle m (.next (s.setOnHalt (some k))) s
  | .start => onlyIn .idle m (startClock s) s

/-- The move made when none is listed: the host starts an IDLE machine, the boot order's last step (rule
R235), and the instruction clock ticks otherwise (DESIGN CHOICE, unsafe on the run from reset: assumption 5). -/
def defaultMove (r : RunState) : Move :=
  match r with
  | .idle => .start
  | .running | .halted | .faulted => .tick

/-- One step of the machine: the next listed move, which is taken off the list, or the default one. -/
def stepWith (handler : Instr → State → Res State) (s : State) : Res State :=
  match s.moves with
  | [] => perform handler (defaultMove s.run) s
  | m :: rest => perform handler m (s.setMoves rest)

/-! ### Placing an instruction -/

/-- Where a placed instruction stands: at PC when three bytes can be fetched there, otherwise at 0. -/
def placeAddress (s : State) : Nat := if s.pc.toNat + 2 < s.cfg.memSize then s.pc.toNat else 0

/-- `s` with an instruction's three bytes stored where the next cycle fetches, and everything set that the
very next step needs to run it: RUNNING, a tick next, the watchdog and the interrupt check passed. On
`State.reset` this sets the run state and the tick (rule R234) and stores the bytes (DESIGN CHOICE, safe:
assumption 6). -/
def placeWord (s : State) (nbits w : Nat) : State :=
  { s with
    pc := BitVec.ofNat 8 (placeAddress s)
    mem := ((s.mem.write (placeAddress s) (tableByte nbits w 0)).write
      (placeAddress s + 1) (tableByte nbits w 1)).write (placeAddress s + 2) (tableByte nbits w 2)
    regs := (s.setReg rIS (s.is &&& ~~~s.im)).regs
    cycles := min s.cycles (s.cfg.cycleCeiling - 1)
    run := .running
    moves := .tick :: s.moves }

end Sys2Proof.Machine
end

