-- ==== Sys2Proof/Machine/Flags.lean ====
section
/-! DEFINITION. The flags register (rules R32-R34): its bits, the one flag computation of the machine
(rule R135) and the one bit that instructions read (rules R153, R154). -/

namespace Sys2Proof.Machine

/-- E, bit 0: equal (rule R32). -/
def flagE : Byte := 0x01
/-- G, bit 1: greater (rule R32). -/
def flagG : Byte := 0x02
/-- L, bit 2: less (rule R32). -/
def flagL : Byte := 0x04

/-- The flags byte of an unsigned compare: exactly one of E, G, L, bits 7..3 clear (rules R130, R136). -/
def compareFlags (va vb : Byte) : Byte :=
  if va.toNat = vb.toNat then flagE else if vb.toNat < va.toNat then flagG else flagL

/-- `FL[0] == 1` (rules R153, R154). -/
def State.equalFlag (s : State) : Bool := s.fl.getLsbD 0

end Sys2Proof.Machine
end

