-- ==== Sys2Proof/Machine/Operands.lean ====
section
/-! DEFINITION. The operand forms (rules R86, R87): an operand byte as a register index, checked when the
handler uses it, and the immediate byte, taken whole. -/

namespace Sys2Proof.Machine

/-- The register that an operand byte names: the whole byte is the index, not masked to three bits
(rule R86); none for 8..255. Checked on access only (decision D13, UNVERIFIED, unsafe: assumption 18). -/
def regIndex (a : Byte) : Option (Fin 8) :=
  if h : a.toNat < 8 then some ⟨a.toNat, h⟩ else none

/-- The operand byte that names a register. -/
def regByte (i : Fin 8) : Byte := BitVec.ofNat 8 i.val

/-- Read of `x[a]`, with the index check (rules R17, R183). -/
def readReg (a : Byte) (s : State) : Res Byte :=
  match regIndex a with
  | some i => .next (s.reg i)
  | none => raise (.invalidRegisterIndex a) s

/-- `x[a] <- v`, with the index check (rules R17, R183). -/
def writeReg (a v : Byte) (s : State) : Res State :=
  match regIndex a with
  | some i => .next (s.setReg i v)
  | none => raise (.invalidRegisterIndex a) s

/-- The immediate of LDI: operand B as it stands, not extended, scaled or masked (rule R87). -/
def immediate (b : Byte) : Byte := b

end Sys2Proof.Machine
end

