-- ==== Sys2Proof/Machine/Alu.lean ====
section
/-! DEFINITION. The ALU (rule R130) and its instructions: ADD, MUL and CMP (rules R131, R133, R135). -/

namespace Sys2Proof.Machine

/-- An operation requested of the ALU (rules R8, R130). -/
inductive AluOp where
  | add
  | mul
  | cmp
  /-- Any other operation name; no instruction passes one (rule R184). -/
  | unsupported (name : String)
  deriving DecidableEq, Repr

/-- `compute(operation, a, b)` (rule R130): computed exactly on naturals and narrowed at the end; none for
an operation the ALU does not have. -/
def aluCompute (op : AluOp) (va vb : Byte) : Option Byte :=
  match op with
  | .add => some (BitVec.ofNat 8 (va.toNat + vb.toNat))
  | .mul => some (BitVec.ofNat 8 (va.toNat * vb.toNat))
  | .cmp => some (compareFlags va vb)
  | .unsupported _ => none

/-- The operation's name, as InvalidALUOperation reports it. -/
def AluOp.name : AluOp → String
  | .add => "ADD"
  | .mul => "MUL"
  | .cmp => "CMP"
  | .unsupported n => n

/-- A handler's call of the ALU: InvalidALUOperation where the ALU has no such operation (rules R8, R184). -/
def alu (op : AluOp) (va vb : Byte) (s : State) : Res Byte :=
  match aluCompute op va vb with
  | some v => .next v
  | none => raise (.invalidALUOperation op.name) s

/-- Reads regA, then regB, and hands both to the ALU (rules R131, R133, R135). -/
def aluOperands (op : AluOp) (a b : Byte) (s : State) : Res Byte :=
  andThen (readReg a s) fun va =>
  andThen (readReg b s) fun vb => alu op va vb s

/-- `ADD regA, regB`: `x[a] <- (va + vb) mod 256` (rule R131). -/
def execAdd (a b : Byte) (s : State) : Res State :=
  andThen (aluOperands .add a b s) fun v =>
  andThen (writeReg a v s) (advance 2)

/-- `MUL regA, regB`: `x[a] <- (va * vb) mod 256` (rule R133). -/
def execMul (a b : Byte) (s : State) : Res State :=
  andThen (aluOperands .mul a b s) fun v =>
  andThen (writeReg a v s) (advance 2)

/-- `CMP regA, regB`: the whole FL byte written with the compare's result (rule R135). -/
def execCmp (a b : Byte) (s : State) : Res State :=
  andThen (aluOperands .cmp a b s) fun v => advance 2 (s.setFl v)

end Sys2Proof.Machine
end

