-- ==== Sys2Proof/Machine/Control.lean ====
section
/-! DEFINITION. Control transfer: CALL, RET, JMP, JEQ and JNE (rules R150-R154). A handler that writes PC
skips the generic advance (rule R157). -/

namespace Sys2Proof.Machine

/-- `pc <- x[a]`, the target unchecked (rule R155). -/
def jumpTo (a : Byte) (s : State) : Res State :=
  andThen (readReg a s) fun target => .next (s.setPc target)

/-- `CALL regA`: the address after the CALL pushed, then the jump (rules R150, R156). The sum is a byte,
which cannot wrap at a fetched CALL (DEDUCED, safe: assumption 20). -/
def execCall (a : Byte) (s : State) : Res State :=
  andThen (push (s.pc + 2) s) (jumpTo a)

/-- `RET`: `pc <- Pop()` (rule R151). -/
def execRet (s : State) : Res State :=
  andThen (pop s) fun p => .next (p.2.setPc p.1)

/-- `JMP regA` (rule R152). -/
def execJmp (a : Byte) (s : State) : Res State := jumpTo a s

/-- `JEQ regA`: the jump when E is set; otherwise the register file is not accessed (rule R153). -/
def execJeq (a : Byte) (s : State) : Res State :=
  if s.equalFlag = true then jumpTo a s else advance 1 s

/-- `JNE regA`: the jump when E is clear (rule R154). -/
def execJne (a : Byte) (s : State) : Res State :=
  if s.equalFlag = false then jumpTo a s else advance 1 s

end Sys2Proof.Machine
end

