-- ==== Sys2Proof/Machine/LoadStore.lean ====
section
/-! DEFINITION. Load-immediate and store: LDI and ST (rules R120, R121). -/

namespace Sys2Proof.Machine

/-- `LDI regA, immediate`: `x[a] <- b` (rule R120). -/
def execLdi (a imm : Byte) (s : State) : Res State :=
  andThen (writeReg a (immediate imm) s) (advance 2)

/-- `ST regA, regB`: the byte of regB stored at the address in regA (rule R121). -/
def execSt (a b : Byte) (s : State) : Res State :=
  andThen (readReg a s) fun addr =>
  andThen (readReg b s) fun v =>
  andThen (memWrite addr.toNat v s) (advance 2)

end Sys2Proof.Machine
end

