-- ==== Sys2Proof/Machine/Stack.lean ====
section
/-! DEFINITION. The stack instructions: PUSH and POP (rules R142, R143), their statements in the order
written (decision D14, UNVERIFIED, unsafe: assumption 15). -/

namespace Sys2Proof.Machine

/-- `PUSH regA`: SP decremented, then regA read and stored at the new SP (rule R142). -/
def execPush (a : Byte) (s : State) : Res State :=
  andThen (readReg a (decSp s)) fun v =>
  andThen (memWrite (decSp s).sp.toNat v (decSp s)) (advance 1)

/-- `POP regA`: the byte at SP written to regA, then SP incremented (rule R143). -/
def execPop (a : Byte) (s : State) : Res State :=
  andThen (memRead s.sp.toNat s) fun t =>
  andThen (writeReg a t s) fun s1 => advance 1 (incSp s1)

end Sys2Proof.Machine
end

