-- ==== Sys2Proof/Machine/System.lean ====
section
/-! DEFINITION. Output and system instructions: PRN, PRA, IRET and HLT (rules R165-R168). No instruction is
privileged: there is one mode (rule R205). -/

namespace Sys2Proof.Machine

/-- `PRN regA`: emits `Prn(x[a])` (rule R165). -/
def execPrn (a : Byte) (s : State) : Res State :=
  andThen (readReg a s) fun v => advance 1 (s.emit (.prn v))

/-- `PRA regA`: emits `Pra(x[a])` (rule R166). -/
def execPra (a : Byte) (s : State) : Res State :=
  andThen (readReg a s) fun c => advance 1 (s.emit (.pra c))

/-- `IRET`: the shared return from an interrupt (rule R167). -/
def execIret (s : State) : Res State := interruptReturn s

/-- `HLT`: `Halt()`, then the generic advance (rules R106, R168; decision D6, UNVERIFIED, unsafe:
assumption 16). -/
def execHlt (s : State) : Res State := advance 0 (halt s)

end Sys2Proof.Machine
end

