-- ==== Sys2Proof/Machine/Step.lean ====
section
/-! DEFINITION. The step function: Cycle.lean's step with the dispatch table as its handlers. -/

namespace Sys2Proof.Machine

/-- One atomic step of the agent whose move is next (rules R15, R100). -/
def step (s : State) : Host.Outcome State Fault Refusal := stepWith exec s

/-- `s` with the instruction of table bits `w` placed where the very next step fetches and runs it. -/
def State.withFetchWord (s : State) (nbits w : Nat) : State := placeWord s nbits w

end Sys2Proof.Machine
end

