-- ==== Sys2Proof/Machine/Output.lean ====
section
/-! DEFINITION. The text of the output (rule R13). The spec fixes the decimal numeral of PRN, the printable ASCII
character of PRA, and the eight binary digits and the PC of a decode report; the rest is `OUT_RENDER` (rule R6,
decision D12, points U8 and U9), an argument here. -/

namespace Sys2Proof.Machine

/-- The unsigned decimal numeral, without leading zeros (rule R165). -/
def decimalDigits (v : Byte) : List Char := Nat.toDigits 10 v.toNat

/-- Eight characters `0` or `1`, most significant bit first (rules R16, R108). -/
def binaryDigits (v : Byte) : List Char :=
  [7, 6, 5, 4, 3, 2, 1, 0].map fun k : Nat => if v.getLsbD k then '1' else '0'

/-- The printable character with that ASCII code (rule R166), 32..126; none for control codes and for the codes
that ASCII does not define (point U9). -/
def asciiChar (c : Byte) : Option Char :=
  if 32 ≤ c.toNat ∧ c.toNat ≤ 126 then some (Char.ofNat c.toNat) else none

/-- `OUT_RENDER` (rule R6): what the host shows where no rule fixes it. That text around an event depends on the
event and those before it, and that a report gives the opcode before the PC and the PC in a radix of 2..16, are
the model's (DESIGN CHOICE, unsafe against another report: assumption 13). -/
structure OutRender where
  /-- What stands before an event, from the events before it (point U8). -/
  before : List Event → Event → List Char
  /-- What stands after an event, from the events before it (point U8). -/
  after : List Event → Event → List Char
  /-- What PRA shows for a control code or a code above 127 (point U9). -/
  otherChar : Byte → List Char
  /-- What stands between the opcode and the PC of a report, leading zeros among it. -/
  between : Byte → Byte → List Char
  /-- The radix of the PC of a report. -/
  pcRadix : Nat
  pcRadix_ok : 2 ≤ pcRadix ∧ pcRadix ≤ 16
  /-- Whether its letter digits are capitals. -/
  pcCapitals : Bool

/-- The PC of a report as a numeral. -/
def OutRender.pcDigits (r : OutRender) (pc : Byte) : List Char :=
  (Nat.toDigits r.pcRadix pc.toNat).map fun c => if r.pcCapitals then c.toUpper else c

/-- The words of an event: those that the rules quote, in full (rules R13, R165, R166, R108). -/
def Event.text (r : OutRender) : Event → List Char
  | .prn v => decimalDigits v
  | .pra c => (asciiChar c).elim (r.otherChar c) fun ch => [ch]
  | .decodeError opcode pc => binaryDigits opcode ++ r.between opcode pc ++ r.pcDigits pc

/-- An event as the host shows it, after the events before it. -/
def Event.render (r : OutRender) (past : List Event) (e : Event) : List Char :=
  r.before past e ++ e.text r ++ r.after past e

/-- Events as the host shows them, in their order, after the events before them. -/
def renderFrom (r : OutRender) : List Event → List Event → List Char
  | _, [] => []
  | past, e :: es => e.render r past ++ renderFrom r (past ++ [e]) es

/-- The output list as the host shows it (rules R13, R40). -/
def State.console (s : State) (r : OutRender) : List Char := renderFrom r [] s.out

end Sys2Proof.Machine
end

