-- ==== Sys2Proof/Safety.lean ====
section
/-! DEFINITION. What counts as a safe run, in the terms the statements use: completing, aborting, the
machine's invariant, the reachable states, and the two words about a step's circumstances. -/

namespace Sys2Proof.Machine

/-- The step or instruction answers a next state. -/
def Completes (x : Res State) : Prop := ∃ t, x = .next t

/-- A fatal fault (rule R181): FAULTED, and what the rule in question says of the state left behind. -/
def Aborts {α : Type} (x : Res α) (fault : State → Fault) (leaves : State → Prop) : Prop :=
  ∃ left, left.run = .faulted ∧ leaves left ∧ x = .fault (fault left)

/-- The memory is in the canonical form and lists no cell at or above `MEM_SIZE`. -/
def State.MemoryOk (s : State) : Prop := s.mem.wf ∧ ∀ c ∈ s.mem, c.1 < s.cfg.memSize

/-- The halt callback has been invoked once if the machine has halted with one registered, and not
otherwise (rules R12, R204). -/
def State.CallbackOk (s : State) : Prop :=
  s.invoked = if s.run = .halted then s.onHalt.toList else []

/-- The counter of a machine that runs has not passed the ceiling, and no counter is more than one above
it (rule R101). -/
def State.WatchdogOk (s : State) : Prop :=
  s.cycles ≤ s.cfg.cycleCeiling + 1 ∧ (s.run = .running → s.cycles ≤ s.cfg.cycleCeiling)

/-- A machine that has not been started is as `construct` left it, but for its memory and its callback
(rules R230-R235), and one that runs was started with a configuration the hardware admits (rule R51). -/
def State.LaunchOk (s : State) : Prop :=
  (s.run = .idle → s.regs = resetRegs ∧ s.pc = 0 ∧ s.fl = 0 ∧ s.cycles = 0 ∧ s.out = []) ∧
  (s.run = .running → s.cfg.Legal)

/-- The invariant of the machine. That the run state is not FAULTED says that a crashed run never shows as
a next state (decision D10). -/
def State.Inv (s : State) : Prop :=
  s.MemoryOk ∧ s.CallbackOk ∧ s.WatchdogOk ∧ s.LaunchOk ∧ s.run ≠ .faulted

/-- The states that some run reaches: from any configuration, any memory image and any schedule of the
agents' moves (rules R15, R196, R230). -/
inductive Reachable : State → Prop where
  | launch (cfg : Config) (mem : Memory) (moves : List Move)
      (h : (State.construct cfg mem).MemoryOk) :
      Reachable ((State.construct cfg mem).setMoves moves)
  | step {s t : State} (h : Reachable s) (hs : Sys2Proof.Machine.step s = .next t) : Reachable t

/-- The next move is a cycle of the CPU: RUNNING, and a tick is listed next. -/
def State.TickNext (s : State) : Prop := s.run = .running ∧ s.moves.head? = some .tick

/-- The state that a cycle works on: the tick taken off the schedule and counted (rule R101). -/
def State.ticked (s : State) : State := counted (s.setMoves s.moves.tail)

/-- The instruction that stands at PC: its three bytes are in memory and decode to it (rules R103, R104). -/
def State.InstrAt (s : State) (i : Instr) : Prop :=
  s.pc.toNat + 2 < s.cfg.memSize ∧
  decodeWith s.cfg.opc (s.mem.read s.pc.toNat) (s.mem.read (s.pc.toNat + 1))
    (s.mem.read (s.pc.toNat + 2)) = .ok i

/-- A conditional jump that is not taken (rules R153, R154). -/
def State.FallsThrough (s : State) (i : Instr) : Prop :=
  (∃ a, i = .jeq a ∧ s.equalFlag = false) ∨ ∃ a, i = .jne a ∧ s.equalFlag = true

/-- What no instruction changes: configuration, cycle counter, callback registration, schedule. -/
def SameSurroundings (s t : State) : Prop :=
  t.cfg = s.cfg ∧ t.cycles = s.cycles ∧ t.onHalt = s.onHalt ∧ t.moves = s.moves

/-- What no instruction but HLT changes besides: the run state and the halt notifications. -/
def SameRun (s t : State) : Prop := SameSurroundings s t ∧ t.run = s.run ∧ t.invoked = s.invoked

/-- `n` pops: the bytes in the order they are popped, and the state after them (rule R141). -/
def popMany : Nat → State → Res (List Byte × State)
  | 0, s => .next ([], s)
  | n + 1, s => andThen (pop s) fun p => andThen (popMany n p.2) fun q => .next (p.1 :: q.1, q.2)

end Sys2Proof.Machine
end

