-- ==== Sys2Proof/Certificates/Slice0/Obligations.lean ====
section
/-! DEFINITION. The statements about the machine, for the provers. `regByte i` is the operand byte that names
register `i`, so "for every `i : Fin 8`" is "for every operand byte 0..7", registers 5, 6 and 7 (IM, IS, SP)
among them. -/

open Sys2Proof Sys2Proof.Machine

/-! ### Reset and the machine's invariant -/

/-- R42: the table of reset values, for every configuration and memory image (`MEM_INIT` stays as the host
made it); `State.reset` is such a state, of a legal configuration with the default `MEM_SIZE` 256. -/
def Obligations.ConstructLeavesTheInitialState : Prop :=
  (∀ (cfg : Config) (mem : Memory),
    (∀ i : Fin 8, (State.construct cfg mem).reg i = if i = 7 then 0xF4 else 0) ∧
    (State.construct cfg mem).im = 0 ∧ (State.construct cfg mem).is = 0 ∧
    (State.construct cfg mem).sp = 0xF4 ∧ (State.construct cfg mem).pc = 0 ∧
    (State.construct cfg mem).fl = 0 ∧ (State.construct cfg mem).mem = mem ∧
    (State.construct cfg mem).cycles = 0 ∧ (State.construct cfg mem).run = .idle ∧
    (State.construct cfg mem).onHalt = none ∧ (State.construct cfg mem).out = []) ∧
  ∃ (cfg : Config) (mem : Memory), cfg.Legal ∧ cfg.memSize = 256 ∧ State.reset = State.construct cfg mem

/-- The invariant holds right after `construct`, whatever the schedule, and at `State.reset`. -/
def Obligations.InvariantHoldsAtLaunch : Prop :=
  (∀ (cfg : Config) (mem : Memory) (moves : List Move), (State.construct cfg mem).MemoryOk →
    ((State.construct cfg mem).setMoves moves).Inv) ∧
  State.reset.Inv

/-- Every step, of the CPU, the timer or the host, keeps the invariant: the memory's canonical form and
bound, the callback's single invocation, the watchdog's bound, the launch rules, and no FAULTED next state. -/
def Obligations.EveryStepKeepsInv : Prop :=
  ∀ s t : State, s.Inv → Sys2Proof.Machine.step s = .next t → t.Inv

/-- Every state that a run reaches, from any configuration, memory image and schedule, meets the invariant: the
launch and the step taken together. -/
def Obligations.ReachableStatesMeetInv : Prop :=
  ∀ s : State, Reachable s → s.Inv

/-! ### Decoding and encoding -/

/-- Encoding an instruction and decoding it gives it back with every operand at every value, whatever bytes
follow, for every opcode table that rule R95 admits. -/
def Obligations.DecodeOfEncode : Prop :=
  ∀ (o : Opc) (i : Instr) (rest : List Byte), o.Legal →
    decodeBytesWith o (encodeWith o i ++ rest) = .ok (i, rest)

/-- What decodes to an instruction begins with that instruction's encoding: each opcode byte has one meaning,
operand bytes are handed on raw, and no operand bit is dropped. -/
def Obligations.EncodeOfDecode : Prop :=
  ∀ (o : Opc) (opcode a b : Byte) (i : Instr), decodeWith o opcode a b = .ok i →
    encodeWith o i = [opcode, a, b].take (1 + i.operandCount)

/-- Exactly the bytes outside the opcode table are refused, by name, and the operand bytes do not matter;
in a legal table these are 240 of the 256 bytes, with every byte 0xC0..0xFF among them; with the default
opcodes 0x00 is one. That another legal table may hold 0x00 is the model's choice (log entry 23). -/
def Obligations.UnknownOpcodesAreRefused : Prop :=
  (∀ (o : Opc) (opcode a b : Byte),
    decodeWith o opcode a b = .error (.unknownOpcode opcode) ↔ ∀ m : Mnemonic, o.byte m ≠ opcode) ∧
  (∀ o : Opc, o.Legal →
    (Finset.univ.filter fun x : Byte => ∀ m ∈ Mnemonic.all, o.byte m ≠ x).card = 240 ∧
    ∀ x : Byte, 0xC0 ≤ x.toNat → ∀ m : Mnemonic, o.byte m ≠ x) ∧
  ∀ m : Mnemonic, Opc.default.byte m ≠ 0x00

/-- R82: the operand count of a decoded instruction is the top two bits of its opcode byte. -/
def Obligations.OperandCountIsTheTopTwoBits : Prop :=
  ∀ (o : Opc) (opcode a b : Byte) (i : Instr), o.Legal → decodeWith o opcode a b = .ok i →
    i.operandCount = (opcode >>> 6).toNat ∧ (encodeWith o i).length = 1 + (opcode >>> 6).toNat

/-- A few words of the spec's encoding vectors (95_test_vectors section 4), under the default opcode table. LDI,
MUL, PRN and HLT have the source's bytes; the bytes of ST, CMP, PUSH, JNE and IRET are the defaults of decision D3
(PRESUMED: log entry 4). -/
def Obligations.SampleWordsDecode : Prop :=
  decode 0b10011001 0b00000000 0b00001000 = .ok (.ldi 0 8) ∧
  decode 0b10101010 0b00000000 0b00000001 = .ok (.mul 0 1) ∧
  decode 0b01000011 0b00000000 0x01 = .ok (.prn 0) ∧
  decode 0b00000001 0x00 0x00 = .ok .hlt ∧
  decode 0x9A 0x02 0x00 = .ok (.st 2 0) ∧
  decode 0xA0 0x00 0x02 = .ok (.cmp 0 2) ∧
  decode 0x4D 0x01 0x99 = .ok (.push 1) ∧
  decode 0x52 0x03 0x01 = .ok (.jne 3) ∧
  decode 0x0B 0xFF 0xFF = .ok .iret

/-! ### The instruction rules

Each says the encoding, the result for every operand and state in which the rule lets the instruction run to
its end, and each fault with what the rule says of the state it leaves. A premise `s.pc.toNat + n ≤ 255` is
that of the generic advance (rule R107), whose fault is stated apart. -/

/-- R120. -/
def Obligations.LdiLoadsTheImmediate : Prop :=
  (∀ (o : Opc) (a b : Byte), o.Legal → encodeWith o (.ldi a b) = [0x99, a, b]) ∧
  (∀ (s : State) (i : Fin 8) (b : Byte), s.pc.toNat + 3 ≤ 255 →
    exec (.ldi (regByte i) b) s = .next ((s.setReg i b).setPc (s.pc + 3))) ∧
  (∀ (s : State) (a b : Byte), 8 ≤ a.toNat →
    Aborts (exec (.ldi a b) s) (.invalidRegisterIndex a) fun t => t.regs = s.regs)

/-- R121. -/
def Obligations.StStoresAtTheRegisterAddress : Prop :=
  (∀ (o : Opc) (a b : Byte), encodeWith o (.st a b) = [o.st, a, b]) ∧
  (∀ (s : State) (i j : Fin 8), (s.reg i).toNat < s.cfg.memSize → s.pc.toNat + 3 ≤ 255 →
    exec (.st (regByte i) (regByte j)) s =
      .next ((s.setMem (s.mem.write (s.reg i).toNat (s.reg j))).setPc (s.pc + 3))) ∧
  (∀ (s : State) (a b : Byte), 8 ≤ a.toNat →
    Aborts (exec (.st a b) s) (.invalidRegisterIndex a) fun t => t.mem = s.mem) ∧
  (∀ (s : State) (i : Fin 8) (b : Byte), 8 ≤ b.toNat →
    Aborts (exec (.st (regByte i) b) s) (.invalidRegisterIndex b) fun t => t.mem = s.mem) ∧
  (∀ (s : State) (i j : Fin 8), s.cfg.memSize ≤ (s.reg i).toNat →
    Aborts (exec (.st (regByte i) (regByte j)) s) (.outOfBoundsAccess (s.reg i).toNat)
      fun t => t.mem = s.mem)

/-- R131, and the result's law of R132. -/
def Obligations.AddIsModulo256 : Prop :=
  (∀ (o : Opc) (a b : Byte), encodeWith o (.add a b) = [o.add, a, b]) ∧
  (∀ (s : State) (i j : Fin 8), s.pc.toNat + 3 ≤ 255 →
    exec (.add (regByte i) (regByte j)) s =
      .next ((s.setReg i (BitVec.ofNat 8 (((s.reg i).toNat + (s.reg j).toNat) % 256))).setPc (s.pc + 3))) ∧
  (∀ (s : State) (a b : Byte), 8 ≤ a.toNat →
    Aborts (exec (.add a b) s) (.invalidRegisterIndex a) fun t => t.regs = s.regs) ∧
  (∀ (s : State) (i : Fin 8) (b : Byte), 8 ≤ b.toNat →
    Aborts (exec (.add (regByte i) b) s) (.invalidRegisterIndex b) fun t => t.regs = s.regs)

/-- R133, and the result's law of R134. -/
def Obligations.MulIsModulo256 : Prop :=
  (∀ (o : Opc) (a b : Byte), o.Legal → encodeWith o (.mul a b) = [0xAA, a, b]) ∧
  (∀ (s : State) (i j : Fin 8), s.pc.toNat + 3 ≤ 255 →
    exec (.mul (regByte i) (regByte j)) s =
      .next ((s.setReg i (BitVec.ofNat 8 (((s.reg i).toNat * (s.reg j).toNat) % 256))).setPc (s.pc + 3))) ∧
  (∀ (s : State) (a b : Byte), 8 ≤ a.toNat →
    Aborts (exec (.mul a b) s) (.invalidRegisterIndex a) fun t => t.regs = s.regs) ∧
  (∀ (s : State) (i : Fin 8) (b : Byte), 8 ≤ b.toNat →
    Aborts (exec (.mul (regByte i) b) s) (.invalidRegisterIndex b) fun t => t.regs = s.regs)

/-- R135, and R136: the comparison is unsigned and exactly one of E, G, L is set. -/
def Obligations.CmpSetsExactlyOneFlag : Prop :=
  (∀ (o : Opc) (a b : Byte), encodeWith o (.cmp a b) = [o.cmp, a, b]) ∧
  (∀ (s : State) (i j : Fin 8), s.pc.toNat + 3 ≤ 255 →
    exec (.cmp (regByte i) (regByte j)) s =
      .next ((s.setFl (if s.reg i = s.reg j then 0x01
        else if (s.reg j).toNat < (s.reg i).toNat then 0x02 else 0x04)).setPc (s.pc + 3))) ∧
  (∀ (s : State) (a b : Byte), 8 ≤ a.toNat →
    Aborts (exec (.cmp a b) s) (.invalidRegisterIndex a) fun t => t.fl = s.fl) ∧
  (∀ (s : State) (i : Fin 8) (b : Byte), 8 ≤ b.toNat →
    Aborts (exec (.cmp (regByte i) b) s) (.invalidRegisterIndex b) fun t => t.fl = s.fl)

/-- R142: SP is decremented first, so `PUSH R7` stores the decremented SP (decision D14; log entry 15). -/
def Obligations.PushStoresBelowSp : Prop :=
  (∀ (o : Opc) (a : Byte), encodeWith o (.push a) = [o.push, a]) ∧
  (∀ (s : State) (i : Fin 8), (s.reg 7 - 1).toNat < s.cfg.memSize → s.pc.toNat + 2 ≤ 255 →
    exec (.push (regByte i)) s =
      .next (((s.setReg 7 (s.reg 7 - 1)).setMem
        (s.mem.write (s.reg 7 - 1).toNat (if i = 7 then s.reg 7 - 1 else s.reg i))).setPc (s.pc + 2))) ∧
  (∀ (s : State) (a : Byte), 8 ≤ a.toNat →
    Aborts (exec (.push a) s) (.invalidRegisterIndex a) fun t => t.reg 7 = s.reg 7 - 1) ∧
  (∀ (s : State) (i : Fin 8), s.cfg.memSize ≤ (s.reg 7 - 1).toNat →
    Aborts (exec (.push (regByte i)) s) (.outOfBoundsAccess (s.reg 7 - 1).toNat)
      fun t => t.reg 7 = s.reg 7 - 1)

/-- R143: the popped byte is written and then SP incremented, so `POP R7` leaves the popped byte plus one
(decision D14; log entry 15). -/
def Obligations.PopLoadsFromSp : Prop :=
  (∀ (o : Opc) (a : Byte), encodeWith o (.pop a) = [o.pop, a]) ∧
  (∀ (s : State) (i : Fin 8), (s.reg 7).toNat < s.cfg.memSize → s.pc.toNat + 2 ≤ 255 →
    exec (.pop (regByte i)) s =
      .next ((if i = 7 then s.setReg 7 (s.mem.read (s.reg 7).toNat + 1)
        else (s.setReg i (s.mem.read (s.reg 7).toNat)).setReg 7 (s.reg 7 + 1)).setPc (s.pc + 2))) ∧
  (∀ (s : State) (a : Byte), s.cfg.memSize ≤ (s.reg 7).toNat →
    Aborts (exec (.pop a) s) (.outOfBoundsAccess (s.reg 7).toNat) fun t => t.reg 7 = s.reg 7) ∧
  (∀ (s : State) (a : Byte), (s.reg 7).toNat < s.cfg.memSize → 8 ≤ a.toNat →
    Aborts (exec (.pop a) s) (.invalidRegisterIndex a) fun t => t.reg 7 = s.reg 7)

/-- R150: the push comes first, so `CALL R7` jumps to the decremented SP (decision D14; log entry 15);
no generic advance. A CALL is fetched only where the address after it is a byte, which is the premise on PC; at any
other PC see `PushCallFrame`. -/
def Obligations.CallPushesTheReturnAddress : Prop :=
  (∀ (o : Opc) (a : Byte), encodeWith o (.call a) = [o.call, a]) ∧
  (∀ (s : State) (i : Fin 8), (s.reg 7 - 1).toNat < s.cfg.memSize → s.pc.toNat + 2 ≤ 255 →
    exec (.call (regByte i)) s =
      .next (((s.setReg 7 (s.reg 7 - 1)).setMem (s.mem.write (s.reg 7 - 1).toNat (s.pc + 2))).setPc
        (if i = 7 then s.reg 7 - 1 else s.reg i))) ∧
  (∀ (s : State) (a : Byte), s.cfg.memSize ≤ (s.reg 7 - 1).toNat →
    Aborts (exec (.call a) s) (.outOfBoundsAccess (s.reg 7 - 1).toNat) fun _ => True) ∧
  (∀ (s : State) (a : Byte), (s.reg 7 - 1).toNat < s.cfg.memSize → s.pc.toNat + 2 ≤ 255 → 8 ≤ a.toNat →
    Aborts (exec (.call a) s) (.invalidRegisterIndex a) fun t =>
      t.reg 7 = s.reg 7 - 1 ∧ t.mem.read (s.reg 7 - 1).toNat = s.pc + 2)

/-- R151. -/
def Obligations.RetPopsThePc : Prop :=
  (∀ o : Opc, encodeWith o .ret = [o.ret]) ∧
  (∀ s : State, (s.reg 7).toNat < s.cfg.memSize →
    exec .ret s = .next ((s.setReg 7 (s.reg 7 + 1)).setPc (s.mem.read (s.reg 7).toNat))) ∧
  (∀ s : State, s.cfg.memSize ≤ (s.reg 7).toNat →
    Aborts (exec .ret s) (.outOfBoundsAccess (s.reg 7).toNat) fun _ => True)

/-- R152. -/
def Obligations.JmpGoesToTheRegister : Prop :=
  (∀ (o : Opc) (a : Byte), encodeWith o (.jmp a) = [o.jmp, a]) ∧
  (∀ (s : State) (i : Fin 8), exec (.jmp (regByte i)) s = .next (s.setPc (s.reg i))) ∧
  (∀ (s : State) (a : Byte), 8 ≤ a.toNat →
    Aborts (exec (.jmp a) s) (.invalidRegisterIndex a) fun t => t.pc = s.pc)

/-- R153: only bit 0 of FL counts, and an untaken jump does not look at its operand (decision
D13; log entry 18). -/
def Obligations.JeqJumpsOnEqual : Prop :=
  (∀ (o : Opc) (a : Byte), encodeWith o (.jeq a) = [o.jeq, a]) ∧
  (∀ (s : State) (i : Fin 8), s.fl.getLsbD 0 = true →
    exec (.jeq (regByte i)) s = .next (s.setPc (s.reg i))) ∧
  (∀ (s : State) (a : Byte), s.fl.getLsbD 0 = false → s.pc.toNat + 2 ≤ 255 →
    exec (.jeq a) s = .next (s.setPc (s.pc + 2))) ∧
  (∀ (s : State) (a : Byte), s.fl.getLsbD 0 = true → 8 ≤ a.toNat →
    Aborts (exec (.jeq a) s) (.invalidRegisterIndex a) fun _ => True)

/-- R154: only bit 0 of FL counts, and an untaken jump does not look at its operand (decision
D13; log entry 18). -/
def Obligations.JneJumpsOnNotEqual : Prop :=
  (∀ (o : Opc) (a : Byte), encodeWith o (.jne a) = [o.jne, a]) ∧
  (∀ (s : State) (i : Fin 8), s.fl.getLsbD 0 = false →
    exec (.jne (regByte i)) s = .next (s.setPc (s.reg i))) ∧
  (∀ (s : State) (a : Byte), s.fl.getLsbD 0 = true → s.pc.toNat + 2 ≤ 255 →
    exec (.jne a) s = .next (s.setPc (s.pc + 2))) ∧
  (∀ (s : State) (a : Byte), s.fl.getLsbD 0 = false → 8 ≤ a.toNat →
    Aborts (exec (.jne a) s) (.invalidRegisterIndex a) fun _ => True)

/-- R165: one event is emitted, rendered as the unsigned decimal numeral; nothing else but PC changes. -/
def Obligations.PrnEmitsTheDecimalValue : Prop :=
  (∀ (o : Opc) (a : Byte), o.Legal → encodeWith o (.prn a) = [0x43, a]) ∧
  (∀ (s : State) (i : Fin 8), s.pc.toNat + 2 ≤ 255 →
    exec (.prn (regByte i)) s = .next ((s.emit (.prn (s.reg i))).setPc (s.pc + 2))) ∧
  (∀ (r : OutRender) (v : Byte), Event.text r (.prn v) = Nat.toDigits 10 v.toNat) ∧
  (∀ (s : State) (a : Byte), 8 ≤ a.toNat →
    Aborts (exec (.prn a) s) (.invalidRegisterIndex a) fun t => t.out = s.out)

/-- R166: the event carries the byte, and a printable ASCII code is rendered as its character; what is shown for
control codes and for 128..255 is `OUT_RENDER`. -/
def Obligations.PraEmitsTheCharacter : Prop :=
  (∀ (o : Opc) (a : Byte), encodeWith o (.pra a) = [o.pra, a]) ∧
  (∀ (s : State) (i : Fin 8), s.pc.toNat + 2 ≤ 255 →
    exec (.pra (regByte i)) s = .next ((s.emit (.pra (s.reg i))).setPc (s.pc + 2))) ∧
  (∀ (r : OutRender) (c : Byte), 32 ≤ c.toNat → c.toNat ≤ 126 →
    Event.text r (.pra c) = [Char.ofNat c.toNat]) ∧
  (∀ (s : State) (a : Byte), 8 ≤ a.toNat →
    Aborts (exec (.pra a) s) (.invalidRegisterIndex a) fun t => t.out = s.out)

/-- R167: nine pops, from SP upwards modulo 256, into R6..R0, FL and PC, then IM = 1. The fault is that of
the first pop out of range. -/
def Obligations.IretRestoresFromTheFrame : Prop :=
  (∀ o : Opc, encodeWith o .iret = [o.iret]) ∧
  (∀ s : State, (∀ k : Fin 9, (s.reg 7 + BitVec.ofNat 8 k.val).toNat < s.cfg.memSize) →
    ∃ t : State, exec .iret s = .next t ∧
      t.reg 6 = s.mem.read (s.reg 7).toNat ∧ t.reg 5 = 0x01 ∧
      t.reg 4 = s.mem.read (s.reg 7 + 2).toNat ∧ t.reg 3 = s.mem.read (s.reg 7 + 3).toNat ∧
      t.reg 2 = s.mem.read (s.reg 7 + 4).toNat ∧ t.reg 1 = s.mem.read (s.reg 7 + 5).toNat ∧
      t.reg 0 = s.mem.read (s.reg 7 + 6).toNat ∧ t.fl = s.mem.read (s.reg 7 + 7).toNat ∧
      t.pc = s.mem.read (s.reg 7 + 8).toNat ∧ t.reg 7 = s.reg 7 + 9 ∧
      t.mem = s.mem ∧ t.out = s.out ∧ SameRun s t) ∧
  (∀ (s : State) (k : Fin 9), s.cfg.memSize ≤ (s.reg 7 + BitVec.ofNat 8 k.val).toNat →
    (∀ j : Fin 9, j < k → (s.reg 7 + BitVec.ofNat 8 j.val).toNat < s.cfg.memSize) →
    Aborts (exec .iret s) (.outOfBoundsAccess (s.reg 7 + BitVec.ofNat 8 k.val).toNat) fun _ => True)

/-- R168: the clock stops, the registered callback is invoked, PC is left one past the HLT (decision D6; log
entry 16), and no agent has a step any more. -/
def Obligations.HltHaltsAndAdvances : Prop :=
  (∀ o : Opc, o.Legal → encodeWith o .hlt = [0x01]) ∧
  (∀ s : State, s.run = .running → s.pc.toNat + 1 ≤ 255 →
    exec .hlt s =
      .next (((s.setRun .halted).setInvoked (s.invoked ++ s.onHalt.toList)).setPc (s.pc + 1))) ∧
  (∀ s t : State, s.run = .running → exec .hlt s = .next t →
    ∃ m : Move, Sys2Proof.Machine.step t = .fault (.noStep m .halted))

/-! ### Frames -/

/-- LDI, ADD, MUL: only the destination register and PC. -/
def Obligations.LdiAddMulFrame : Prop :=
  ∀ (i : Instr) (a b : Byte) (s t : State), i ∈ [Instr.ldi a b, .add a b, .mul a b] →
    exec i s = .next t →
    SameRun s t ∧ t.fl = s.fl ∧ t.out = s.out ∧
    (∀ j : Fin 8, j.val ≠ a.toNat → t.reg j = s.reg j) ∧
    ∀ addr : Nat, t.mem.read addr = s.mem.read addr

/-- CMP: only FL and PC. -/
def Obligations.CmpFrame : Prop :=
  ∀ (a b : Byte) (s t : State), exec (.cmp a b) s = .next t →
    SameRun s t ∧ t.out = s.out ∧ (∀ j : Fin 8, t.reg j = s.reg j) ∧
    ∀ addr : Nat, t.mem.read addr = s.mem.read addr

/-- JMP, JEQ, JNE: only PC. -/
def Obligations.JumpFrame : Prop :=
  ∀ (i : Instr) (a : Byte) (s t : State), i ∈ [Instr.jmp a, .jeq a, .jne a] → exec i s = .next t →
    SameRun s t ∧ t.fl = s.fl ∧ t.out = s.out ∧ (∀ j : Fin 8, t.reg j = s.reg j) ∧
    ∀ addr : Nat, t.mem.read addr = s.mem.read addr

/-- PRN, PRA: only one more event in the output list, and PC. -/
def Obligations.OutputFrame : Prop :=
  ∀ (i : Instr) (a : Byte) (s t : State), i ∈ [Instr.prn a, .pra a] → exec i s = .next t →
    SameRun s t ∧ t.fl = s.fl ∧ (∃ e : Event, t.out = s.out ++ [e]) ∧
    (∀ j : Fin 8, t.reg j = s.reg j) ∧ ∀ addr : Nat, t.mem.read addr = s.mem.read addr

/-- ST: only the cell at the address in regA, and PC. -/
def Obligations.StFrame : Prop :=
  ∀ (a b : Byte) (s t : State), exec (.st a b) s = .next t →
    SameRun s t ∧ t.fl = s.fl ∧ t.out = s.out ∧ (∀ j : Fin 8, t.reg j = s.reg j) ∧
    ∀ x : Byte, readReg a s = .next x → ∀ addr : Nat, addr ≠ x.toNat → t.mem.read addr = s.mem.read addr

/-- PUSH, CALL: only SP, the cell at the decremented SP, and PC. And CALL at every PC, the two included at which
none is fetched: the byte stored is `pc + 2` modulo 256 (the model's: log entry 20), and the target is as there. -/
def Obligations.PushCallFrame : Prop :=
  (∀ (i : Instr) (a : Byte) (s t : State), i ∈ [Instr.push a, .call a] → exec i s = .next t →
    SameRun s t ∧ t.fl = s.fl ∧ t.out = s.out ∧ t.reg 7 = s.reg 7 - 1 ∧
    (∀ j : Fin 8, j ≠ 7 → t.reg j = s.reg j) ∧
    ∀ addr : Nat, addr ≠ (decSp s).sp.toNat → t.mem.read addr = s.mem.read addr) ∧
  (∀ (s : State) (i : Fin 8), (s.reg 7 - 1).toNat < s.cfg.memSize →
    ∃ t : State, exec (.call (regByte i)) s = .next t ∧ t.mem.read (s.reg 7 - 1).toNat = s.pc + 2 ∧
      t.pc = if i = 7 then s.reg 7 - 1 else s.reg i) ∧
  (∀ (s : State) (a : Byte), (s.reg 7 - 1).toNat < s.cfg.memSize → 8 ≤ a.toNat →
    Aborts (exec (.call a) s) (.invalidRegisterIndex a) fun t =>
      t.reg 7 = s.reg 7 - 1 ∧ t.mem.read (s.reg 7 - 1).toNat = s.pc + 2)

/-- POP, RET: only SP and PC, and for POP the destination register. -/
def Obligations.PopRetFrame : Prop :=
  (∀ (a : Byte) (s t : State), exec (.pop a) s = .next t →
    SameRun s t ∧ t.fl = s.fl ∧ t.out = s.out ∧
    (∀ j : Fin 8, j ≠ 7 → j.val ≠ a.toNat → t.reg j = s.reg j) ∧
    ∀ addr : Nat, t.mem.read addr = s.mem.read addr) ∧
  (∀ s t : State, exec .ret s = .next t →
    SameRun s t ∧ t.fl = s.fl ∧ t.out = s.out ∧ (∀ j : Fin 8, j ≠ 7 → t.reg j = s.reg j) ∧
    ∀ addr : Nat, t.mem.read addr = s.mem.read addr)

/-- IRET: no memory, no output; the general registers, FL and PC are what it restores, and SP ends nine
higher. -/
def Obligations.IretFrame : Prop :=
  ∀ s t : State, exec .iret s = .next t →
    SameRun s t ∧ t.out = s.out ∧ t.reg 7 = s.reg 7 + 9 ∧
    ∀ addr : Nat, t.mem.read addr = s.mem.read addr

/-- HLT: only the run state, the halt notification, and PC. -/
def Obligations.HltFrame : Prop :=
  ∀ s t : State, exec .hlt s = .next t →
    SameSurroundings s t ∧ t.fl = s.fl ∧ t.out = s.out ∧ (∀ j : Fin 8, t.reg j = s.reg j) ∧
    ∀ addr : Nat, t.mem.read addr = s.mem.read addr

/-! ### Rules about the whole machine -/

/-- Over all instructions: only CMP and IRET write FL (R33), only PRN and PRA add to the output (R40), only
ST, PUSH and CALL write memory (R55), only HLT stops the clock, and none touches the configuration, the cycle
counter, the callback registration or the schedule. -/
def Obligations.OnlyTheNamedInstructionsWrite : Prop :=
  ∀ (i : Instr) (s t : State), exec i s = .next t →
    SameSurroundings s t ∧
    (i.mnemonic ∉ [Mnemonic.cmp, .iret] → t.fl = s.fl) ∧
    (i.mnemonic ∉ [Mnemonic.prn, .pra] → t.out = s.out) ∧
    (i.mnemonic ∉ [Mnemonic.st, .push, .call] → ∀ addr : Nat, t.mem.read addr = s.mem.read addr) ∧
    (i.mnemonic ≠ .hlt → t.run = s.run ∧ t.invoked = s.invoked)

/-- No step changes the configuration; the output and the halt notifications only grow, and the cycle counter
grows by at most one. -/
def Obligations.EveryStepOnlyAddsToTheRecord : Prop :=
  ∀ s t : State, Sys2Proof.Machine.step s = .next t →
    t.cfg = s.cfg ∧ s.out <+: t.out ∧ s.invoked <+: t.invoked ∧
    (t.cycles = s.cycles ∨ t.cycles = s.cycles + 1)

/-- With `MEM_SIZE` = 256, exactly which cycles complete, whatever the registers, the stack and the memory hold:
those that the watchdog or an interrupt takes, and those that fetch at a PC of at most 0xFD and find there an
unknown opcode or an instruction that advances within 0xFF and uses only registers that exist. -/
def Obligations.FullMemoryCyclesComplete : Prop :=
  ∀ s : State, s.TickNext → s.cfg.memSize = 256 →
    (Completes (Sys2Proof.Machine.step s) ↔
      s.cfg.cycleCeiling ≤ s.cycles ∨ s.im &&& s.is ≠ 0 ∨
      (s.pc.toNat ≤ 0xFD ∧ ∀ i : Instr, s.InstrAt i →
        (i.WellFormed ∨ s.FallsThrough i) ∧ (s.pc.toNat = 0xFD → i.operandCount ≤ 1)))

/-- Whatever the schedule, timer firings at any place in it, a machine makes no more steps than the watchdog leaves
its ticks, one for each other listed move, and one for the start that an IDLE machine makes of an empty schedule
(log entry 5): ticks from a count of `cycles` are at most `CYCLE_CEILING + 1 - cycles`, the last one halting. That
the ceiling itself is still worked is decision D7 (log entry 17). -/
def Obligations.WatchdogBoundsEveryRun : Prop :=
  ∀ (s t : State) (k : Nat), s.cycles ≤ s.cfg.cycleCeiling → Sys2Proof.core.run k s = .next t →
    s.cycles + k ≤ s.cfg.cycleCeiling + 1 + (s.moves.filter fun m => decide (m ≠ .tick)).length +
      if s.run = .idle then 1 else 0

/-! ### Registers, memory, stack and ALU -/

/-- R24: IM, IS and SP are views of R5, R6 and R7: writing the register writes the alias, through the same
storage, and writing another register leaves it alone. -/
def Obligations.AliasesAreViews : Prop :=
  ∀ (s : State) (i : Fin 8) (v : Byte),
    (s.setReg i v).im = (if i = 5 then v else s.im) ∧ (s.setReg i v).is = (if i = 6 then v else s.is) ∧
    (s.setReg i v).sp = (if i = 7 then v else s.sp) ∧
    s.im = s.reg 5 ∧ s.is = s.reg 6 ∧ s.sp = s.reg 7

/-- R52, R53: a read in range gives the cell's content, a write in range changes that one cell and nothing
else, and both raise OutOfBoundsAccess with nothing changed exactly when the address is out of range. -/
def Obligations.MemoryPortReadsAndWrites : Prop :=
  (∀ (s : State) (addr : Nat), addr < s.cfg.memSize → memRead addr s = .next (s.mem.read addr)) ∧
  (∀ (s : State) (addr : Nat), s.cfg.memSize ≤ addr →
    Aborts (memRead addr s) (.outOfBoundsAccess addr) fun t => t = s.setRun .faulted) ∧
  (∀ (s : State) (addr : Nat) (v : Byte), addr < s.cfg.memSize →
    ∃ m : Memory, memWrite addr v s = .next (s.setMem m) ∧ m.read addr = v ∧
      ∀ b : Nat, b ≠ addr → m.read b = s.mem.read b) ∧
  (∀ (s : State) (addr : Nat) (v : Byte), s.cfg.memSize ≤ addr →
    Aborts (memWrite addr v s) (.outOfBoundsAccess addr) fun t => t = s.setRun .faulted)

/-- R144: PUSH then POP on the same register keeps its value and SP, R7 included; and n pushes followed by n
pops give the bytes in reverse order and SP back (n at most 256, the size of the address space).
The second part is R144's own inference from R140 and R141. -/
def Obligations.PushesThenPopsRestore : Prop :=
  (∀ (s : State) (i : Fin 8), (s.reg 7 - 1).toNat < s.cfg.memSize → s.pc.toNat + 4 ≤ 255 →
    ∃ t u : State, exec (.push (regByte i)) s = .next t ∧ exec (.pop (regByte i)) t = .next u ∧
      u.reg i = s.reg i ∧ u.reg 7 = s.reg 7) ∧
  (∀ (s : State) (vs : List Byte), vs.length ≤ 256 →
    (∀ k : Nat, 1 ≤ k → k ≤ vs.length → (s.reg 7 - BitVec.ofNat 8 k).toNat < s.cfg.memSize) →
    ∃ t u : State, pushAll vs s = .next t ∧ popMany vs.length t = .next (vs.reverse, u) ∧
      u.reg 7 = s.reg 7)

/-- R156: a RET comes back to the address after the CALL, for any target register, when the subroutine leaves
SP and the saved byte as it found them. The premise on PC is met by every CALL that can be fetched (R150). -/
def Obligations.RetReturnsAfterTheCall : Prop :=
  ∀ (s t u : State) (i : Fin 8), s.pc.toNat + 2 ≤ 255 → exec (.call (regByte i)) s = .next t →
    u.cfg = t.cfg → u.reg 7 = t.reg 7 → u.mem.read (t.reg 7).toNat = t.mem.read (t.reg 7).toNat →
    ∃ r : State, exec .ret u = .next r ∧ r.pc.toNat = s.pc.toNat + 2 ∧ r.reg 7 = s.reg 7

/-- R130: the ALU's three operations, and the error for any other name. -/
def Obligations.AluComputes : Prop :=
  (∀ va vb : Byte,
    aluCompute .add va vb = some (BitVec.ofNat 8 ((va.toNat + vb.toNat) % 256)) ∧
    aluCompute .mul va vb = some (BitVec.ofNat 8 ((va.toNat * vb.toNat) % 256)) ∧
    aluCompute .cmp va vb =
      some (if va = vb then 0x01 else if vb.toNat < va.toNat then 0x02 else 0x04)) ∧
  (∀ (name : String) (va vb : Byte) (s : State),
    Aborts (alu (.unsupported name) va vb s) (.invalidALUOperation name) fun t => t = s.setRun .faulted)

/-! ### Interrupts -/

/-- R193: the selected source is the lowest-indexed set bit of `pending`, and there is one exactly when
`pending` is not zero. -/
def Obligations.LowestPendingSourceIsSelected : Prop :=
  (∀ (p : Byte) (n : Fin 8),
    lowestSource p = some n ↔ p.getLsbD n.val = true ∧ ∀ m : Fin 8, m < n → p.getLsbD m.val = false) ∧
  ∀ p : Byte, lowestSource p = none ↔ p = 0

/-- R194, R195, R199, R211: IM and IS cleared first, the nine-byte frame below SP, R0..R4 and FL kept, PC from
the vector cell as it stands after the pushes. The first push out of range faults at its address, and with all
nine in range a vector cell out of range faults at its own, IM and IS already cleared. The zeros for R5 and R6 follow from the order of the steps (log entry 21). -/
def Obligations.InterruptEntrySavesTheContext : Prop :=
  (∀ (n : Fin 8) (s : State),
    (∀ k : Nat, 1 ≤ k → k ≤ 9 → (s.reg 7 - BitVec.ofNat 8 k).toNat < s.cfg.memSize) →
    0xF8 + n.val < s.cfg.memSize →
    ∃ t : State, interruptEntry n s = .next t ∧
      t.reg 5 = 0 ∧ t.reg 6 = 0 ∧ t.reg 7 = s.reg 7 - 9 ∧
      (∀ i : Fin 8, i.val < 5 → t.reg i = s.reg i) ∧ t.fl = s.fl ∧
      t.mem.read (s.reg 7 - 1).toNat = s.pc ∧ t.mem.read (s.reg 7 - 2).toNat = s.fl ∧
      t.mem.read (s.reg 7 - 3).toNat = s.reg 0 ∧ t.mem.read (s.reg 7 - 4).toNat = s.reg 1 ∧
      t.mem.read (s.reg 7 - 5).toNat = s.reg 2 ∧ t.mem.read (s.reg 7 - 6).toNat = s.reg 3 ∧
      t.mem.read (s.reg 7 - 7).toNat = s.reg 4 ∧ t.mem.read (s.reg 7 - 8).toNat = 0 ∧
      t.mem.read (s.reg 7 - 9).toNat = 0 ∧
      (∀ addr : Nat, (∀ k : Nat, 1 ≤ k → k ≤ 9 → addr ≠ (s.reg 7 - BitVec.ofNat 8 k).toNat) →
        t.mem.read addr = s.mem.read addr) ∧
      t.pc = t.mem.read (0xF8 + n.val) ∧ t.out = s.out ∧ SameRun s t) ∧
  (∀ (n : Fin 8) (s : State) (k : Nat), 1 ≤ k → k ≤ 9 →
    s.cfg.memSize ≤ (s.reg 7 - BitVec.ofNat 8 k).toNat →
    (∀ j : Nat, 1 ≤ j → j < k → (s.reg 7 - BitVec.ofNat 8 j).toNat < s.cfg.memSize) →
    Aborts (interruptEntry n s) (.outOfBoundsAccess (s.reg 7 - BitVec.ofNat 8 k).toNat)
      fun t => t.im = 0 ∧ t.is = 0) ∧
  (∀ (n : Fin 8) (s : State),
    (∀ k : Nat, 1 ≤ k → k ≤ 9 → (s.reg 7 - BitVec.ofNat 8 k).toNat < s.cfg.memSize) →
    s.cfg.memSize ≤ 0xF8 + n.val →
    Aborts (interruptEntry n s) (.outOfBoundsAccess (0xF8 + n.val)) fun t => t.im = 0 ∧ t.is = 0)

/-- R200: an IRET that finds SP and the frame as the entry left them restores PC, FL, R0..R4 and SP, and
leaves R5 = 1 and R6 = 0. The zero rests on the order of the entry's steps (log entry 21). -/
def Obligations.IretUndoesInterruptEntry : Prop :=
  ∀ (n : Fin 8) (s t u : State), interruptEntry n s = .next t →
    u.cfg = t.cfg → u.reg 7 = t.reg 7 →
    (∀ k : Fin 9, u.mem.read (t.reg 7 + BitVec.ofNat 8 k.val).toNat =
      t.mem.read (t.reg 7 + BitVec.ofNat 8 k.val).toNat) →
    ∃ r : State, exec .iret u = .next r ∧ r.pc = s.pc ∧ r.fl = s.fl ∧
      (∀ i : Fin 8, i.val < 5 → r.reg i = s.reg i) ∧ r.reg 5 = 1 ∧ r.reg 6 = 0 ∧ r.reg 7 = s.reg 7

/-! ### The cycle -/

/-- R100: a cycle that neither the watchdog nor an interrupt takes runs the instruction at PC: step is exec of
it, on the state with the tick taken off the schedule and the cycle counted. And the clock fires only while
RUNNING (R9): a tick listed in any other run state has no step. -/
def Obligations.StepRunsTheDecodedInstruction : Prop :=
  (∀ (s : State) (i : Instr), s.TickNext → s.cycles < s.cfg.cycleCeiling → s.im &&& s.is = 0 → s.InstrAt i →
    Sys2Proof.Machine.step s = exec i s.ticked) ∧
  (∀ (s : State) (rest : List Move), s.run ≠ .running → s.moves = .tick :: rest →
    Sys2Proof.Machine.step s = .fault (.noStep .tick s.run))

/-- R102, R193: a cycle with IM & IS not zero is an interrupt entry, of the lowest pending enabled source, and
no instruction. -/
def Obligations.StepTakesThePendingInterrupt : Prop :=
  ∀ (s : State) (n : Fin 8), s.TickNext → s.cycles < s.cfg.cycleCeiling →
    (s.im &&& s.is).getLsbD n.val = true → (∀ m : Fin 8, m < n → (s.im &&& s.is).getLsbD m.val = false) →
    Sys2Proof.Machine.step s = interruptEntry n s.ticked

/-- R101: every cycle counts one, whatever it goes on to do; the cycle whose count passes the ceiling only
halts, whatever is pending and wherever PC points: PC, registers, flags, memory and output are unchanged, and a
registered callback is invoked. Up to the ceiling, and with it in exactly `CYCLE_CEILING` cycles, the watchdog
does nothing but count. That the ceiling itself is still worked, and that the watchdog comes first, is decision
D7 of 92_eei_decisions.md (log entry 17). -/
def Obligations.WatchdogHaltsSilently : Prop :=
  (∀ s t : State, s.TickNext → Sys2Proof.Machine.step s = .next t → t.cycles = s.cycles + 1) ∧
  (∀ s : State, s.TickNext → s.cfg.cycleCeiling < s.cycles + 1 →
    Sys2Proof.Machine.step s =
      .next ((s.ticked.setRun .halted).setInvoked (s.invoked ++ s.onHalt.toList))) ∧
  (∀ s : State, s.TickNext → s.cycles + 1 ≤ s.cfg.cycleCeiling →
    Sys2Proof.Machine.step s = interruptOrRun exec s.ticked)

/-- R108: an unknown opcode is reported in binary with the PC and halts the machine; registers, flags and memory
are unchanged, and a registered callback is invoked. That PC keeps the address is decision D6 of
92_eei_decisions.md (log entry 16). Where the three bytes cannot all be fetched the fault comes first. That the
text of the report is the opcode's digits, then what `OUT_RENDER` puts between, then the PC as a numeral of
`OUT_RENDER`'s radix and letter case, is the model's choice (log entry 13). -/
def Obligations.UnknownOpcodeReportsAndHalts : Prop :=
  (∀ s : State, s.TickNext → s.cycles < s.cfg.cycleCeiling → s.im &&& s.is = 0 →
    s.pc.toNat + 2 < s.cfg.memSize → (∀ m : Mnemonic, s.cfg.opc.byte m ≠ s.mem.read s.pc.toNat) →
    Sys2Proof.Machine.step s =
      .next (((s.ticked.emit (.decodeError (s.mem.read s.pc.toNat) s.pc)).setRun .halted).setInvoked
        (s.invoked ++ s.onHalt.toList))) ∧
  (∀ (r : OutRender) (opcode pc : Byte), Event.text r (.decodeError opcode pc) =
    ((List.range 8).map fun k => if opcode.getLsbD (7 - k) then '1' else '0') ++
      r.between opcode pc ++
      ((Nat.toDigits r.pcRadix pc.toNat).map fun c => if r.pcCapitals then c.toUpper else c)) ∧
  (∀ s : State, s.TickNext → s.cycles < s.cfg.cycleCeiling → s.im &&& s.is = 0 →
    s.cfg.memSize ≤ s.pc.toNat + 2 → (∀ m : Mnemonic, s.cfg.opc.byte m ≠ s.mem.read s.pc.toNat) →
    ∃ addr : Nat, s.cfg.memSize ≤ addr ∧
      Aborts (Sys2Proof.Machine.step s) (.outOfBoundsAccess addr) fun t => t.out = s.out)

/-- R103: the three bytes are always fetched, in order and without wrap: in range, they are the bytes at `pc`,
`pc + 1` and `pc + 2`; otherwise the first address out of range is the one the fault reports. -/
def Obligations.FetchReadsThreeBytesInOrder : Prop :=
  (∀ s : State, s.pc.toNat + 2 < s.cfg.memSize →
    fetch s = .next (s.mem.read s.pc.toNat, s.mem.read (s.pc.toNat + 1), s.mem.read (s.pc.toNat + 2))) ∧
  (∀ (s : State) (k : Fin 3), s.TickNext → s.cycles < s.cfg.cycleCeiling → s.im &&& s.is = 0 →
    s.cfg.memSize ≤ s.pc.toNat + k.val → (∀ j : Fin 3, j < k → s.pc.toNat + j.val < s.cfg.memSize) →
    Aborts (Sys2Proof.Machine.step s) (.outOfBoundsAccess (s.pc.toNat + k.val)) fun _ => True)

/-- R107: an advance past 0xFF faults with PC not written and the handler's other effects done, and a fetched
instruction meets it only with three bytes, at 0xFD, with `MEM_SIZE` = 256; a fetched HLT never does. The fault in place of a wrap is decision D2 of
92_eei_decisions.md (log entry 11). -/
def Obligations.AdvancePastTheTopFaults : Prop :=
  (∀ (s : State) (n : Nat), 0xFF < s.pc.toNat + 1 + n →
    Aborts (advance n s) (.outOfBoundsAccess (s.pc.toNat + 1 + n)) fun t => t = s.setRun .faulted) ∧
  (∀ (s : State) (i j : Fin 8) (b : Byte), 0xFF < s.pc.toNat + 3 →
    Aborts (exec (.ldi (regByte i) b) s) (.outOfBoundsAccess (s.pc.toNat + 3))
      (fun t => t.reg i = b ∧ t.pc = s.pc) ∧
    Aborts (exec (.add (regByte i) (regByte j)) s) (.outOfBoundsAccess (s.pc.toNat + 3))
      (fun t => t.reg i = s.reg i + s.reg j ∧ t.pc = s.pc) ∧
    Aborts (exec (.mul (regByte i) (regByte j)) s) (.outOfBoundsAccess (s.pc.toNat + 3))
      (fun t => t.reg i = s.reg i * s.reg j ∧ t.pc = s.pc) ∧
    Aborts (exec (.cmp (regByte i) (regByte j)) s) (.outOfBoundsAccess (s.pc.toNat + 3))
      (fun t => t.fl = compareFlags (s.reg i) (s.reg j) ∧ t.pc = s.pc) ∧
    ((s.reg i).toNat < s.cfg.memSize →
      Aborts (exec (.st (regByte i) (regByte j)) s) (.outOfBoundsAccess (s.pc.toNat + 3))
        (fun t => t.mem.read (s.reg i).toNat = s.reg j ∧ t.pc = s.pc))) ∧
  (∀ (s : State) (i : Instr), s.cfg.memSize ≤ 256 → s.InstrAt i →
    0xFF < s.pc.toNat + 1 + i.operandCount →
    s.pc = 0xFD ∧ s.cfg.memSize = 256 ∧ i.operandCount = 2 ∧ i ≠ .hlt)

/-! ### The timer, the host, and stopping -/

/-- R196: a timer firing sets bit 0 of IS, masked or not, and changes nothing else; it has no step unless the
machine is RUNNING. -/
def Obligations.TimerSetsStatusBitZero : Prop :=
  (∀ (s : State) (rest : List Move), s.run = .running → s.moves = .timer :: rest →
    Sys2Proof.Machine.step s = .next ((s.setMoves rest).setReg 6 (s.reg 6 ||| 0x01))) ∧
  (∀ (s : State) (rest : List Move), s.run ≠ .running → s.moves = .timer :: rest →
    Sys2Proof.Machine.step s = .fault (.noStep .timer s.run))

/-- R232: a poke of an IDLE machine writes that one cell; out of range it is fatal. That there is no poke in any
other run state is decision D19 of 92_eei_decisions.md (log entry 8). -/
def Obligations.PokeWritesOneCell : Prop :=
  (∀ (s : State) (addr : Nat) (v : Byte) (rest : List Move), s.run = .idle → s.moves = .poke addr v :: rest →
    addr < s.cfg.memSize →
    ∃ m : Memory, Sys2Proof.Machine.step s = .next ((s.setMoves rest).setMem m) ∧ m.read addr = v ∧
      ∀ b : Nat, b ≠ addr → m.read b = s.mem.read b) ∧
  (∀ (s : State) (addr : Nat) (v : Byte) (rest : List Move), s.run = .idle → s.moves = .poke addr v :: rest →
    s.cfg.memSize ≤ addr →
    Aborts (Sys2Proof.Machine.step s) (.outOfBoundsAccess addr) fun t => t.mem = s.mem) ∧
  (∀ (s : State) (addr : Nat) (v : Byte) (rest : List Move), s.run ≠ .idle → s.moves = .poke addr v :: rest →
    Sys2Proof.Machine.step s = .fault (.noStep (.poke addr v) s.run))

/-- R233: registering a halt callback sets it, in IDLE, so the last one registered before start is kept; that
there is no later registration is decision D19 of 92_eei_decisions.md (log entry 8). -/
def Obligations.RegistrationKeepsTheLastCallback : Prop :=
  (∀ (s : State) (k : Callback) (rest : List Move), s.run = .idle → s.moves = .registerHalt k :: rest →
    Sys2Proof.Machine.step s = .next ((s.setMoves rest).setOnHalt (some k))) ∧
  (∀ (s : State) (k : Callback) (rest : List Move), s.run ≠ .idle → s.moves = .registerHalt k :: rest →
    Sys2Proof.Machine.step s = .fault (.noStep (.registerHalt k) s.run))

/-- R234: start takes an IDLE machine (of a configuration the hardware admits) to RUNNING and changes no
register and no cell; a machine that is not IDLE has no such step, by decision D19 of 92_eei_decisions.md (log
entry 8). -/
def Obligations.StartRunsTheClock : Prop :=
  (∀ (s : State) (rest : List Move), s.run = .idle → s.moves = .start :: rest → s.cfg.Legal →
    Sys2Proof.Machine.step s = .next ((s.setMoves rest).setRun .running)) ∧
  (∀ (s : State) (rest : List Move), s.run ≠ .idle → s.moves = .start :: rest →
    Sys2Proof.Machine.step s = .fault (.noStep .start s.run))

/-- The model's choice of where a configuration is refused (log entry 9): at start, by name, exactly when it is
not one of those that R51, R6 and R95 admit, a `MEM_SIZE` above 256 among them. -/
def Obligations.IllegalConfigurationIsRefusedAtStart : Prop :=
  (∀ (s : State) (rest : List Move), s.run = .idle → s.moves = .start :: rest →
    (Sys2Proof.Machine.step s = .refused .illegalConfiguration ↔ ¬ s.cfg.Legal)) ∧
  (∀ c : Config, 256 < c.memSize → ¬ c.Legal)

/-- The model's choice for an empty schedule (log entry 5): an IDLE machine is started, any other ticks. -/
def Obligations.EmptyScheduleStartsOrTicks : Prop :=
  ∀ s : State, s.moves = [] →
    Sys2Proof.Machine.step s =
      Sys2Proof.Machine.step (s.setMoves [if s.run = .idle then .start else .tick])

/-- R236: a HALTED or FAULTED machine has no step of any agent. -/
def Obligations.StoppedMachineHasNoStep : Prop :=
  ∀ s : State, s.run = .halted ∨ s.run = .faulted →
    ∃ m : Move, Sys2Proof.Machine.step s = .fault (.noStep m s.run)

/-- R204: `Halt()` takes RUNNING to HALTED and invokes the callback if one is registered; it changes nothing
else, stopping a stopped machine changes nothing, and no agent has a step any more. -/
def Obligations.HaltIsImmediateAndIdempotent : Prop :=
  (∀ s : State, s.run = .running →
    halt s = (s.setRun .halted).setInvoked (s.invoked ++ s.onHalt.toList)) ∧
  (∀ s : State, s.run ≠ .running → halt s = s) ∧
  (∀ s : State, halt (halt s) = halt s) ∧
  (∀ s : State, s.run = .running → ∃ m : Move, Sys2Proof.Machine.step (halt s) = .fault (.noStep m .halted))
end

