-- ==== Sys2Proof/Laws/Decode.lean ====
section
/-! SUPPORT. The dispatch table's lookup and the three-byte decoder in terms of it. -/

namespace Sys2Proof

theorem Mnemonic.mem_all (m : Mnemonic) : m ∈ Mnemonic.all := by
  cases m <;> decide

/-- What the lookup finds is the mnemonic of that opcode byte. -/
theorem Opc.lookup_byte {o : Opc} {opcode : Byte} {m : Mnemonic} (h : o.lookup opcode = some m) :
    o.byte m = opcode := by
  simpa using List.find?_some h

/-- Nothing is found exactly where no mnemonic has that opcode byte. -/
theorem Opc.lookup_eq_none {o : Opc} {opcode : Byte} :
    o.lookup opcode = none ↔ ∀ m, o.byte m ≠ opcode := by
  simp [Opc.lookup, List.find?_eq_none, Mnemonic.mem_all]

/-- In a legal table each mnemonic is found under its own opcode byte. -/
theorem Opc.lookup_of_legal {o : Opc} (h : o.Legal) (m : Mnemonic) : o.lookup (o.byte m) = some m := by
  cases e : o.lookup (o.byte m) with
  | none => exact absurd rfl (Opc.lookup_eq_none.1 e m)
  | some k =>
    exact congrArg some (List.inj_on_of_nodup_map h.1 (Mnemonic.mem_all k) (Mnemonic.mem_all m)
      (Opc.lookup_byte e))

/-- The three-byte decoder is the lookup, with the operand bytes handed on raw. -/
theorem decodeWith_eq (o : Opc) (opcode a b : Byte) :
    decodeWith o opcode a b =
      match o.lookup opcode with
      | some m => .ok (m.instr a b)
      | none => .error (.unknownOpcode opcode) := by
  simp only [decodeWith, decodeBytesWith]
  cases o.lookup opcode with
  | none => rfl
  | some m => cases m <;> rfl

/-- The default opcode table meets the constraints of rule R95. -/
theorem Opc.default_legal : Opc.default.Legal := by decide

end Sys2Proof
end

