-- ==== Sys2Proof/Laws/Memory.lean ====
section
/-! SUPPORT. The memory's laws: read over write, and that every write keeps the canonical form and the
bound on the listed addresses. -/

namespace Sys2Proof.Machine

theorem Memory.read_removeCell (m : Memory) (addr b : Nat) :
    (m.removeCell addr).read b = if b = addr then Memory.unlisted else m.read b := by
  induction m with
  | nil => simp [Memory.removeCell, Memory.read]
  | cons c m ih =>
    obtain ⟨a, v⟩ := c
    by_cases h : a = addr
    · rw [show Memory.removeCell ((a, v) :: m) addr = Memory.removeCell m addr by
        simp [Memory.removeCell, h], ih]
      by_cases hb : b = addr
      · simp [hb]
      · simp [Memory.read, hb, show a ≠ b by omega]
    · rw [show Memory.removeCell ((a, v) :: m) addr = (a, v) :: Memory.removeCell m addr by
        simp [Memory.removeCell, h]]
      simp only [Memory.read, ih]
      by_cases hb : b = addr
      · subst hb; simp [h]
      · simp [hb]

theorem Memory.read_addCell_same (m : Memory) (addr : Nat) (v : Byte) (h : ∀ c ∈ m, c.1 ≠ addr) :
    (m.addCell addr v).read addr = v := by
  induction m with
  | nil => simp [Memory.addCell, Memory.read]
  | cons c m ih =>
    obtain ⟨a, x⟩ := c
    have ha : a ≠ addr := h (a, x) (by simp)
    have ih := ih fun c hc => h c (by simp [hc])
    simp only [Memory.addCell]
    split <;> simp [Memory.read, ha, ih]

theorem Memory.read_addCell_other (m : Memory) {addr b : Nat} (v : Byte) (h : b ≠ addr) :
    (m.addCell addr v).read b = m.read b := by
  induction m with
  | nil => simp [Memory.addCell, Memory.read, Ne.symm h]
  | cons c m ih =>
    obtain ⟨a, x⟩ := c
    simp only [Memory.addCell]
    split <;> simp [Memory.read, Ne.symm h, ih]

theorem Memory.mem_removeCell {m : Memory} {addr : Nat} {c : Host.Cell} :
    c ∈ m.removeCell addr ↔ c ∈ m ∧ c.1 ≠ addr := by
  simp [Memory.removeCell]

theorem Memory.mem_addCell {m : Memory} {addr : Nat} {v : Byte} {c : Host.Cell} :
    c ∈ m.addCell addr v ↔ c = (addr, v) ∨ c ∈ m := by
  induction m with
  | nil => simp [Memory.addCell]
  | cons d m ih =>
    simp only [Memory.addCell]
    split <;> simp [ih]; tauto

/-- Reading over a write, at the written address and at every other, whatever the memory. -/
theorem Memory.read_write (m : Memory) (addr b : Nat) (v : Byte) :
    (m.write addr v).read b = if b = addr then v else m.read b := by
  unfold Memory.write
  split
  · next h => rw [Memory.read_removeCell, h]
  · split
    · next h => subst h; exact Memory.read_addCell_same _ _ _ fun c hc => (Memory.mem_removeCell.1 hc).2
    · next h => rw [Memory.read_addCell_other _ _ h, Memory.read_removeCell, if_neg h]

@[simp] theorem Memory.read_write_same (m : Memory) (addr : Nat) (v : Byte) :
    (m.write addr v).read addr = v := by
  simp [Memory.read_write]

theorem Memory.read_write_other (m : Memory) {addr b : Nat} (v : Byte) (h : b ≠ addr) :
    (m.write addr v).read b = m.read b := by
  simp [Memory.read_write, h]

theorem Memory.wf_removeCell {m : Memory} (h : m.wf) (addr : Nat) : (m.removeCell addr).wf :=
  ⟨h.1.filter _, fun c hc => h.2 c (Memory.mem_removeCell.1 hc).1⟩

theorem Memory.wf_addCell {m : Memory} (h : m.wf) {addr : Nat} {v : Byte} (hv : v ≠ Memory.unlisted)
    (hn : ∀ c ∈ m, c.1 ≠ addr) : (m.addCell addr v).wf := by
  refine ⟨?_, fun c hc => ?_⟩
  · induction m with
    | nil => simp [Memory.addCell]
    | cons d m ih =>
      obtain ⟨a, x⟩ := d
      have hp := List.pairwise_cons.1 h.1
      have ha : a ≠ addr := hn (a, x) (by simp)
      simp only [Memory.addCell]
      split
      · next hlt =>
        refine List.pairwise_cons.2 ⟨fun c hc => ?_, h.1⟩
        rcases List.mem_cons.1 hc with rfl | hc
        · exact hlt
        · exact Nat.lt_trans hlt (hp.1 c hc)
      · next hle =>
        refine List.pairwise_cons.2 ⟨fun c hc => ?_, ?_⟩
        · rcases Memory.mem_addCell.1 hc with rfl | hc
          · change a < addr; omega
          · exact hp.1 c hc
        · exact ih ⟨hp.2, fun c hc => h.2 c (by simp [hc])⟩ fun c hc => hn c (by simp [hc])
  · rcases Memory.mem_addCell.1 hc with rfl | hc
    · exact hv
    · exact h.2 c hc

/-- Every write keeps the canonical form. -/
theorem Memory.wf_write {m : Memory} (h : m.wf) (addr : Nat) (v : Byte) : (m.write addr v).wf := by
  unfold Memory.write
  split
  · exact Memory.wf_removeCell h addr
  · next hv => exact Memory.wf_addCell (Memory.wf_removeCell h addr) hv fun c hc => (Memory.mem_removeCell.1 hc).2

/-- A write below a bound lists nothing at or above it. -/
theorem Memory.bound_write {m : Memory} {n addr : Nat} (h : ∀ c ∈ m, c.1 < n) (ha : addr < n) (v : Byte) :
    ∀ c ∈ m.write addr v, c.1 < n := by
  intro c hc
  unfold Memory.write at hc
  split at hc
  · exact h c (Memory.mem_removeCell.1 hc).1
  · rcases Memory.mem_addCell.1 hc with rfl | hc
    · exact ha
    · exact h c (Memory.mem_removeCell.1 hc).1

/-- The memory of `State.reset` is in the canonical form. -/
theorem Memory.wf_reset : State.reset.mem.wf := by decide

end Sys2Proof.Machine
end

