-- ==== Sys2Proof/Laws/State.lean ====
section
/-! SUPPORT. The field updates of State: what each leaves in each field, and the register file's
read-over-write laws, so that no proof unfolds a record update. -/

namespace Sys2Proof.Machine

section
variable (s : State)

@[simp] theorem State.setReg_cfg (i : Fin 8) (v : Byte) : (s.setReg i v).cfg = s.cfg := rfl
@[simp] theorem State.setReg_regs (i : Fin 8) (v : Byte) : (s.setReg i v).regs = s.regs.set i v := rfl
@[simp] theorem State.setReg_pc (i : Fin 8) (v : Byte) : (s.setReg i v).pc = s.pc := rfl
@[simp] theorem State.setReg_fl (i : Fin 8) (v : Byte) : (s.setReg i v).fl = s.fl := rfl
@[simp] theorem State.setReg_mem (i : Fin 8) (v : Byte) : (s.setReg i v).mem = s.mem := rfl
@[simp] theorem State.setReg_cycles (i : Fin 8) (v : Byte) : (s.setReg i v).cycles = s.cycles := rfl
@[simp] theorem State.setReg_run (i : Fin 8) (v : Byte) : (s.setReg i v).run = s.run := rfl
@[simp] theorem State.setReg_onHalt (i : Fin 8) (v : Byte) : (s.setReg i v).onHalt = s.onHalt := rfl
@[simp] theorem State.setReg_out (i : Fin 8) (v : Byte) : (s.setReg i v).out = s.out := rfl
@[simp] theorem State.setReg_invoked (i : Fin 8) (v : Byte) : (s.setReg i v).invoked = s.invoked := rfl
@[simp] theorem State.setReg_moves (i : Fin 8) (v : Byte) : (s.setReg i v).moves = s.moves := rfl

@[simp] theorem State.setPc_cfg (v : Byte) : (s.setPc v).cfg = s.cfg := rfl
@[simp] theorem State.setPc_regs (v : Byte) : (s.setPc v).regs = s.regs := rfl
@[simp] theorem State.setPc_pc (v : Byte) : (s.setPc v).pc = v := rfl
@[simp] theorem State.setPc_fl (v : Byte) : (s.setPc v).fl = s.fl := rfl
@[simp] theorem State.setPc_mem (v : Byte) : (s.setPc v).mem = s.mem := rfl
@[simp] theorem State.setPc_cycles (v : Byte) : (s.setPc v).cycles = s.cycles := rfl
@[simp] theorem State.setPc_run (v : Byte) : (s.setPc v).run = s.run := rfl
@[simp] theorem State.setPc_onHalt (v : Byte) : (s.setPc v).onHalt = s.onHalt := rfl
@[simp] theorem State.setPc_out (v : Byte) : (s.setPc v).out = s.out := rfl
@[simp] theorem State.setPc_invoked (v : Byte) : (s.setPc v).invoked = s.invoked := rfl
@[simp] theorem State.setPc_moves (v : Byte) : (s.setPc v).moves = s.moves := rfl
@[simp] theorem State.setPc_reg (v : Byte) (j : Fin 8) : (s.setPc v).reg j = s.reg j := rfl

@[simp] theorem State.setFl_cfg (v : Byte) : (s.setFl v).cfg = s.cfg := rfl
@[simp] theorem State.setFl_regs (v : Byte) : (s.setFl v).regs = s.regs := rfl
@[simp] theorem State.setFl_pc (v : Byte) : (s.setFl v).pc = s.pc := rfl
@[simp] theorem State.setFl_fl (v : Byte) : (s.setFl v).fl = v := rfl
@[simp] theorem State.setFl_mem (v : Byte) : (s.setFl v).mem = s.mem := rfl
@[simp] theorem State.setFl_cycles (v : Byte) : (s.setFl v).cycles = s.cycles := rfl
@[simp] theorem State.setFl_run (v : Byte) : (s.setFl v).run = s.run := rfl
@[simp] theorem State.setFl_onHalt (v : Byte) : (s.setFl v).onHalt = s.onHalt := rfl
@[simp] theorem State.setFl_out (v : Byte) : (s.setFl v).out = s.out := rfl
@[simp] theorem State.setFl_invoked (v : Byte) : (s.setFl v).invoked = s.invoked := rfl
@[simp] theorem State.setFl_moves (v : Byte) : (s.setFl v).moves = s.moves := rfl
@[simp] theorem State.setFl_reg (v : Byte) (j : Fin 8) : (s.setFl v).reg j = s.reg j := rfl

@[simp] theorem State.setMem_cfg (m : Memory) : (s.setMem m).cfg = s.cfg := rfl
@[simp] theorem State.setMem_regs (m : Memory) : (s.setMem m).regs = s.regs := rfl
@[simp] theorem State.setMem_pc (m : Memory) : (s.setMem m).pc = s.pc := rfl
@[simp] theorem State.setMem_fl (m : Memory) : (s.setMem m).fl = s.fl := rfl
@[simp] theorem State.setMem_mem (m : Memory) : (s.setMem m).mem = m := rfl
@[simp] theorem State.setMem_cycles (m : Memory) : (s.setMem m).cycles = s.cycles := rfl
@[simp] theorem State.setMem_run (m : Memory) : (s.setMem m).run = s.run := rfl
@[simp] theorem State.setMem_onHalt (m : Memory) : (s.setMem m).onHalt = s.onHalt := rfl
@[simp] theorem State.setMem_out (m : Memory) : (s.setMem m).out = s.out := rfl
@[simp] theorem State.setMem_invoked (m : Memory) : (s.setMem m).invoked = s.invoked := rfl
@[simp] theorem State.setMem_moves (m : Memory) : (s.setMem m).moves = s.moves := rfl
@[simp] theorem State.setMem_reg (m : Memory) (j : Fin 8) : (s.setMem m).reg j = s.reg j := rfl

@[simp] theorem State.setCycles_cfg (n : Nat) : (s.setCycles n).cfg = s.cfg := rfl
@[simp] theorem State.setCycles_regs (n : Nat) : (s.setCycles n).regs = s.regs := rfl
@[simp] theorem State.setCycles_pc (n : Nat) : (s.setCycles n).pc = s.pc := rfl
@[simp] theorem State.setCycles_fl (n : Nat) : (s.setCycles n).fl = s.fl := rfl
@[simp] theorem State.setCycles_mem (n : Nat) : (s.setCycles n).mem = s.mem := rfl
@[simp] theorem State.setCycles_cycles (n : Nat) : (s.setCycles n).cycles = n := rfl
@[simp] theorem State.setCycles_run (n : Nat) : (s.setCycles n).run = s.run := rfl
@[simp] theorem State.setCycles_onHalt (n : Nat) : (s.setCycles n).onHalt = s.onHalt := rfl
@[simp] theorem State.setCycles_out (n : Nat) : (s.setCycles n).out = s.out := rfl
@[simp] theorem State.setCycles_invoked (n : Nat) : (s.setCycles n).invoked = s.invoked := rfl
@[simp] theorem State.setCycles_moves (n : Nat) : (s.setCycles n).moves = s.moves := rfl
@[simp] theorem State.setCycles_reg (n : Nat) (j : Fin 8) : (s.setCycles n).reg j = s.reg j := rfl

@[simp] theorem State.setRun_cfg (r : RunState) : (s.setRun r).cfg = s.cfg := rfl
@[simp] theorem State.setRun_regs (r : RunState) : (s.setRun r).regs = s.regs := rfl
@[simp] theorem State.setRun_pc (r : RunState) : (s.setRun r).pc = s.pc := rfl
@[simp] theorem State.setRun_fl (r : RunState) : (s.setRun r).fl = s.fl := rfl
@[simp] theorem State.setRun_mem (r : RunState) : (s.setRun r).mem = s.mem := rfl
@[simp] theorem State.setRun_cycles (r : RunState) : (s.setRun r).cycles = s.cycles := rfl
@[simp] theorem State.setRun_run (r : RunState) : (s.setRun r).run = r := rfl
@[simp] theorem State.setRun_onHalt (r : RunState) : (s.setRun r).onHalt = s.onHalt := rfl
@[simp] theorem State.setRun_out (r : RunState) : (s.setRun r).out = s.out := rfl
@[simp] theorem State.setRun_invoked (r : RunState) : (s.setRun r).invoked = s.invoked := rfl
@[simp] theorem State.setRun_moves (r : RunState) : (s.setRun r).moves = s.moves := rfl
@[simp] theorem State.setRun_reg (r : RunState) (j : Fin 8) : (s.setRun r).reg j = s.reg j := rfl

@[simp] theorem State.setOnHalt_cfg (k : Option Callback) : (s.setOnHalt k).cfg = s.cfg := rfl
@[simp] theorem State.setOnHalt_regs (k : Option Callback) : (s.setOnHalt k).regs = s.regs := rfl
@[simp] theorem State.setOnHalt_pc (k : Option Callback) : (s.setOnHalt k).pc = s.pc := rfl
@[simp] theorem State.setOnHalt_fl (k : Option Callback) : (s.setOnHalt k).fl = s.fl := rfl
@[simp] theorem State.setOnHalt_mem (k : Option Callback) : (s.setOnHalt k).mem = s.mem := rfl
@[simp] theorem State.setOnHalt_cycles (k : Option Callback) : (s.setOnHalt k).cycles = s.cycles := rfl
@[simp] theorem State.setOnHalt_run (k : Option Callback) : (s.setOnHalt k).run = s.run := rfl
@[simp] theorem State.setOnHalt_onHalt (k : Option Callback) : (s.setOnHalt k).onHalt = k := rfl
@[simp] theorem State.setOnHalt_out (k : Option Callback) : (s.setOnHalt k).out = s.out := rfl
@[simp] theorem State.setOnHalt_invoked (k : Option Callback) : (s.setOnHalt k).invoked = s.invoked := rfl
@[simp] theorem State.setOnHalt_moves (k : Option Callback) : (s.setOnHalt k).moves = s.moves := rfl
@[simp] theorem State.setOnHalt_reg (k : Option Callback) (j : Fin 8) : (s.setOnHalt k).reg j = s.reg j := rfl

@[simp] theorem State.setInvoked_cfg (ks : List Callback) : (s.setInvoked ks).cfg = s.cfg := rfl
@[simp] theorem State.setInvoked_regs (ks : List Callback) : (s.setInvoked ks).regs = s.regs := rfl
@[simp] theorem State.setInvoked_pc (ks : List Callback) : (s.setInvoked ks).pc = s.pc := rfl
@[simp] theorem State.setInvoked_fl (ks : List Callback) : (s.setInvoked ks).fl = s.fl := rfl
@[simp] theorem State.setInvoked_mem (ks : List Callback) : (s.setInvoked ks).mem = s.mem := rfl
@[simp] theorem State.setInvoked_cycles (ks : List Callback) : (s.setInvoked ks).cycles = s.cycles := rfl
@[simp] theorem State.setInvoked_run (ks : List Callback) : (s.setInvoked ks).run = s.run := rfl
@[simp] theorem State.setInvoked_onHalt (ks : List Callback) : (s.setInvoked ks).onHalt = s.onHalt := rfl
@[simp] theorem State.setInvoked_out (ks : List Callback) : (s.setInvoked ks).out = s.out := rfl
@[simp] theorem State.setInvoked_invoked (ks : List Callback) : (s.setInvoked ks).invoked = ks := rfl
@[simp] theorem State.setInvoked_moves (ks : List Callback) : (s.setInvoked ks).moves = s.moves := rfl
@[simp] theorem State.setInvoked_reg (ks : List Callback) (j : Fin 8) : (s.setInvoked ks).reg j = s.reg j := rfl

@[simp] theorem State.setMoves_cfg (ms : List Move) : (s.setMoves ms).cfg = s.cfg := rfl
@[simp] theorem State.setMoves_regs (ms : List Move) : (s.setMoves ms).regs = s.regs := rfl
@[simp] theorem State.setMoves_pc (ms : List Move) : (s.setMoves ms).pc = s.pc := rfl
@[simp] theorem State.setMoves_fl (ms : List Move) : (s.setMoves ms).fl = s.fl := rfl
@[simp] theorem State.setMoves_mem (ms : List Move) : (s.setMoves ms).mem = s.mem := rfl
@[simp] theorem State.setMoves_cycles (ms : List Move) : (s.setMoves ms).cycles = s.cycles := rfl
@[simp] theorem State.setMoves_run (ms : List Move) : (s.setMoves ms).run = s.run := rfl
@[simp] theorem State.setMoves_onHalt (ms : List Move) : (s.setMoves ms).onHalt = s.onHalt := rfl
@[simp] theorem State.setMoves_out (ms : List Move) : (s.setMoves ms).out = s.out := rfl
@[simp] theorem State.setMoves_invoked (ms : List Move) : (s.setMoves ms).invoked = s.invoked := rfl
@[simp] theorem State.setMoves_moves (ms : List Move) : (s.setMoves ms).moves = ms := rfl
@[simp] theorem State.setMoves_reg (ms : List Move) (j : Fin 8) : (s.setMoves ms).reg j = s.reg j := rfl

@[simp] theorem State.emit_cfg (e : Event) : (s.emit e).cfg = s.cfg := rfl
@[simp] theorem State.emit_regs (e : Event) : (s.emit e).regs = s.regs := rfl
@[simp] theorem State.emit_pc (e : Event) : (s.emit e).pc = s.pc := rfl
@[simp] theorem State.emit_fl (e : Event) : (s.emit e).fl = s.fl := rfl
@[simp] theorem State.emit_mem (e : Event) : (s.emit e).mem = s.mem := rfl
@[simp] theorem State.emit_cycles (e : Event) : (s.emit e).cycles = s.cycles := rfl
@[simp] theorem State.emit_run (e : Event) : (s.emit e).run = s.run := rfl
@[simp] theorem State.emit_onHalt (e : Event) : (s.emit e).onHalt = s.onHalt := rfl
@[simp] theorem State.emit_out (e : Event) : (s.emit e).out = s.out ++ [e] := rfl
@[simp] theorem State.emit_invoked (e : Event) : (s.emit e).invoked = s.invoked := rfl
@[simp] theorem State.emit_moves (e : Event) : (s.emit e).moves = s.moves := rfl
@[simp] theorem State.emit_reg (e : Event) (j : Fin 8) : (s.emit e).reg j = s.reg j := rfl

end

/-- A register reads what was last written to it, and a write leaves the other registers alone. -/
theorem State.setReg_reg (s : State) (i j : Fin 8) (v : Byte) :
    (s.setReg i v).reg j = if i = j then v else s.reg j := by
  simp only [State.reg, State.setReg, Vector.get_eq_getElem, Vector.getElem_set, Fin.ext_iff]

@[simp] theorem State.setReg_reg_same (s : State) (i : Fin 8) (v : Byte) : (s.setReg i v).reg i = v := by
  simp [State.setReg_reg]

theorem State.setReg_reg_other (s : State) {i j : Fin 8} (v : Byte) (h : i ≠ j) :
    (s.setReg i v).reg j = s.reg j := by
  simp [State.setReg_reg, h]

/-- Two register files that agree on every register are equal. -/
theorem State.regs_ext {s t : State} (h : ∀ i : Fin 8, s.reg i = t.reg i) : s.regs = t.regs := by
  ext i hi : 1
  exact h ⟨i, hi⟩

@[simp] theorem State.im_eq (s : State) : s.im = s.reg 5 := rfl
@[simp] theorem State.is_eq (s : State) : s.is = s.reg 6 := rfl
@[simp] theorem State.sp_eq (s : State) : s.sp = s.reg 7 := rfl

/-- The registers of a machine right after `construct`. -/
theorem State.construct_reg (cfg : Config) (mem : Memory) (i : Fin 8) :
    (State.construct cfg mem).reg i = if i = 7 then spInit else 0 := by
  revert i
  change ∀ i : Fin 8, resetRegs.get i = if i = 7 then spInit else 0
  decide

end Sys2Proof.Machine
end

