-- ==== Sys2Proof/Laws/Ops.lean ====
section
/-! SUPPORT. One lemma for each shared operation that says everything it can do: when it answers a next
value, which one, and what it leaves unchanged. -/

namespace Sys2Proof.Machine

/-! ### Sequencing and faults -/

@[simp] theorem andThen_next {α β : Type} (v : α) (f : α → Res β) : andThen (.next v) f = f v := rfl

@[simp] theorem andThen_fault {α β : Type} (r : Fault) (f : α → Res β) :
    andThen (.fault r) f = .fault r := rfl

@[simp] theorem andThen_refused {α β : Type} (r : Refusal) (f : α → Res β) :
    andThen (.refused r) f = .refused r := rfl

/-- A sequence completes exactly where its first part completes and its second part does on the result. -/
theorem andThen_eq_next {α β : Type} {x : Res α} {f : α → Res β} {t : β} :
    andThen x f = .next t ↔ ∃ v, x = .next v ∧ f v = .next t := by
  cases x <;> simp [andThen]

@[simp] theorem raise_eq_next {α : Type} {fault : State → Fault} {s : State} {v : α} :
    raise fault s = .next v ↔ False := by
  simp [raise]

@[simp] theorem andThen_raise {α β : Type} (fault : State → Fault) (s : State) (f : α → Res β) :
    andThen (raise fault s) f = raise fault s := rfl

/-- Every raise is a fatal fault that leaves FAULTED and the changes made before it. -/
theorem raise_aborts {α : Type} {fault : State → Fault} {s : State} {leaves : State → Prop}
    (h : leaves (s.setRun .faulted)) : Aborts (raise fault s : Res α) fault leaves :=
  ⟨s.setRun .faulted, rfl, h, rfl⟩

/-! ### The memory port -/

theorem memRead_eq_next {addr : Nat} {s : State} {v : Byte} :
    memRead addr s = .next v ↔ addr < s.cfg.memSize ∧ v = s.mem.read addr := by
  unfold memRead
  split
  · next h => simp only [h, true_and, Host.Outcome.next.injEq, eq_comm]
  · next h => simp only [h, false_and, raise_eq_next]

theorem memRead_in {addr : Nat} {s : State} (h : addr < s.cfg.memSize) :
    memRead addr s = .next (s.mem.read addr) := if_pos h

theorem memRead_out {addr : Nat} {s : State} (h : s.cfg.memSize ≤ addr) :
    memRead addr s = raise (.outOfBoundsAccess addr) s := if_neg (by omega)

theorem memWrite_eq_next {addr : Nat} {v : Byte} {s t : State} :
    memWrite addr v s = .next t ↔ addr < s.cfg.memSize ∧ t = s.setMem (s.mem.write addr v) := by
  unfold memWrite
  split
  · next h => simp only [h, true_and, Host.Outcome.next.injEq, eq_comm]
  · next h => simp only [h, false_and, raise_eq_next]

theorem memWrite_in {addr : Nat} {v : Byte} {s : State} (h : addr < s.cfg.memSize) :
    memWrite addr v s = .next (s.setMem (s.mem.write addr v)) := if_pos h

theorem memWrite_out {addr : Nat} {v : Byte} {s : State} (h : s.cfg.memSize ≤ addr) :
    memWrite addr v s = raise (.outOfBoundsAccess addr) s := if_neg (by omega)

/-- A memory write in range keeps the canonical form and the bound. -/
theorem State.MemoryOk.write {s : State} (h : s.MemoryOk) {addr : Nat} (ha : addr < s.cfg.memSize)
    (v : Byte) : (s.setMem (s.mem.write addr v)).MemoryOk :=
  ⟨Memory.wf_write h.1 addr v, Memory.bound_write h.2 ha v⟩

/-- The canonical form and the bound rest on the memory and the configuration alone. -/
theorem State.MemoryOk.congr {s t : State} (h : s.MemoryOk) (hm : t.mem = s.mem) (hc : t.cfg = s.cfg) :
    t.MemoryOk := by
  unfold State.MemoryOk
  rw [hm, hc]
  exact h

/-! ### Operands -/

@[simp] theorem regIndex_regByte (i : Fin 8) : regIndex (regByte i) = some i := by
  revert i; decide

theorem regIndex_eq_some {a : Byte} {i : Fin 8} : regIndex a = some i ↔ a.toNat = i.val := by
  unfold regIndex
  split
  · simp [Fin.ext_iff]
  · simp only [reduceCtorEq, false_iff]; omega

theorem regIndex_eq_none {a : Byte} : regIndex a = none ↔ 8 ≤ a.toNat := by
  unfold regIndex
  split <;> simp <;> omega

theorem readReg_eq_next {a : Byte} {s : State} {v : Byte} :
    readReg a s = .next v ↔ ∃ i : Fin 8, a.toNat = i.val ∧ v = s.reg i := by
  unfold readReg
  cases h : regIndex a with
  | none =>
    rw [regIndex_eq_none] at h
    simp only [raise_eq_next, false_iff, not_exists, not_and]
    intro i hi
    omega
  | some i =>
    rw [regIndex_eq_some] at h
    constructor
    · intro e
      cases e
      exact ⟨i, h, rfl⟩
    · rintro ⟨j, hj, rfl⟩
      obtain rfl : i = j := Fin.ext (by omega)
      rfl

@[simp] theorem readReg_regByte (i : Fin 8) (s : State) : readReg (regByte i) s = .next (s.reg i) := by
  simp [readReg]

theorem readReg_bad {a : Byte} {s : State} (h : 8 ≤ a.toNat) :
    readReg a s = raise (.invalidRegisterIndex a) s := by
  simp [readReg, regIndex_eq_none.2 h]

theorem writeReg_eq_next {a v : Byte} {s t : State} :
    writeReg a v s = .next t ↔ ∃ i : Fin 8, a.toNat = i.val ∧ t = s.setReg i v := by
  unfold writeReg
  cases h : regIndex a with
  | none =>
    rw [regIndex_eq_none] at h
    simp only [raise_eq_next, false_iff, not_exists, not_and]
    intro i hi
    omega
  | some i =>
    rw [regIndex_eq_some] at h
    constructor
    · intro e
      cases e
      exact ⟨i, h, rfl⟩
    · rintro ⟨j, hj, rfl⟩
      obtain rfl : i = j := Fin.ext (by omega)
      rfl

@[simp] theorem writeReg_regByte (i : Fin 8) (v : Byte) (s : State) :
    writeReg (regByte i) v s = .next (s.setReg i v) := by
  simp [writeReg]

theorem writeReg_bad {a v : Byte} {s : State} (h : 8 ≤ a.toNat) :
    writeReg a v s = raise (.invalidRegisterIndex a) s := by
  simp [writeReg, regIndex_eq_none.2 h]

/-! ### The PC -/

theorem advance_eq_next {n : Nat} {s t : State} :
    advance n s = .next t ↔
      s.pc.toNat + 1 + n ≤ 0xFF ∧ t = s.setPc (BitVec.ofNat 8 (s.pc.toNat + 1 + n)) := by
  unfold advance
  split
  · next h => simp only [h, true_and, Host.Outcome.next.injEq, eq_comm]
  · next h => simp only [h, false_and, raise_eq_next]

theorem advance_in {n : Nat} {s : State} (h : s.pc.toNat + 1 + n ≤ 0xFF) :
    advance n s = .next (s.setPc (BitVec.ofNat 8 (s.pc.toNat + 1 + n))) := if_pos h

theorem advance_out {n : Nat} {s : State} (h : 0xFF < s.pc.toNat + 1 + n) :
    advance n s = raise (.outOfBoundsAccess (s.pc.toNat + 1 + n)) s := if_neg (by omega)

theorem jumpTo_eq_next {a : Byte} {s t : State} :
    jumpTo a s = .next t ↔ ∃ i : Fin 8, a.toNat = i.val ∧ t = s.setPc (s.reg i) := by
  simp only [jumpTo, andThen_eq_next, readReg_eq_next]
  constructor
  · rintro ⟨_, ⟨i, hi, rfl⟩, h⟩
    cases h
    exact ⟨i, hi, rfl⟩
  · rintro ⟨i, hi, rfl⟩
    exact ⟨_, ⟨i, hi, rfl⟩, rfl⟩

/-! ### The ALU -/

/-- A handler's call of the ALU completes exactly where both operand bytes name registers and the ALU has
the operation; it changes nothing. -/
theorem aluOperands_eq_next {op : AluOp} {a b : Byte} {s : State} {v : Byte} :
    aluOperands op a b s = .next v ↔
      ∃ i j : Fin 8, a.toNat = i.val ∧ b.toNat = j.val ∧ aluCompute op (s.reg i) (s.reg j) = some v := by
  simp only [aluOperands, andThen_eq_next, readReg_eq_next, alu]
  constructor
  · rintro ⟨_, ⟨i, hi, rfl⟩, _, ⟨j, hj, rfl⟩, h⟩
    refine ⟨i, j, hi, hj, ?_⟩
    cases e : aluCompute op (s.reg i) (s.reg j) with
    | none => simp [e] at h
    | some w => simp [e] at h; rw [h]
  · rintro ⟨i, j, hi, hj, h⟩
    exact ⟨_, ⟨i, hi, rfl⟩, _, ⟨j, hj, rfl⟩, by simp [h]⟩

/-! ### The stack -/

theorem push_eq_next {v : Byte} {s t : State} :
    push v s = .next t ↔ (s.reg 7 - 1).toNat < s.cfg.memSize ∧
      t = (s.setReg 7 (s.reg 7 - 1)).setMem (s.mem.write (s.reg 7 - 1).toNat v) := by
  simp [push, memWrite_eq_next, decSp]

theorem pop_eq_next {s t : State} {v : Byte} :
    pop s = .next (v, t) ↔ (s.reg 7).toNat < s.cfg.memSize ∧
      v = s.mem.read (s.reg 7).toNat ∧ t = s.setReg 7 (s.reg 7 + 1) := by
  simp only [pop, andThen_eq_next, memRead_eq_next, incSp, State.sp_eq, rSP]
  constructor
  · rintro ⟨w, ⟨h, rfl⟩, e⟩
    cases e
    exact ⟨h, rfl, rfl⟩
  · rintro ⟨h, rfl, rfl⟩
    exact ⟨_, ⟨h, rfl⟩, rfl⟩

/-- What pushes leave unchanged, and where they leave SP. -/
theorem pushAll_frame {vs : List Byte} {s t : State} (h : pushAll vs s = .next t) :
    SameRun s t ∧ t.pc = s.pc ∧ t.fl = s.fl ∧ t.out = s.out ∧
      (∀ i : Fin 8, i ≠ 7 → t.reg i = s.reg i) ∧ t.reg 7 = s.reg 7 - BitVec.ofNat 8 vs.length ∧
      (s.MemoryOk → t.MemoryOk) := by
  induction vs generalizing s with
  | nil => cases h; simp [SameRun, SameSurroundings]
  | cons v vs ih =>
    obtain ⟨u, hu, h⟩ := andThen_eq_next.1 h
    obtain ⟨hr, rfl⟩ := push_eq_next.1 hu
    obtain ⟨⟨⟨a, b, c, d⟩, e, f⟩, g, k, l, m, n, o⟩ := ih h
    refine ⟨⟨⟨a, b, c, d⟩, e, f⟩, g, k, l, fun i hi => ?_, ?_, fun hs => o ?_⟩
    · rw [m i hi, State.setMem_reg, State.setReg_reg_other _ _ (Ne.symm hi)]
    · rw [n, State.setMem_reg, State.setReg_reg_same, List.length_cons, BitVec.ofNat_add,
        BitVec.sub_sub, BitVec.add_comm]
      rfl
    · exact State.MemoryOk.write (s := s.setReg 7 (s.reg 7 - 1)) (hs.congr rfl rfl) hr v

/-- The pop whose address is in range. -/
theorem pop_in {s : State} (h : (s.reg 7).toNat < s.cfg.memSize) :
    pop s = .next (s.mem.read (s.reg 7).toNat, s.setReg 7 (s.reg 7 + 1)) :=
  pop_eq_next.2 ⟨h, rfl, rfl⟩

/-- The pop whose address is out of range. -/
theorem pop_out {s : State} (h : s.cfg.memSize ≤ (s.reg 7).toNat) :
    pop s = raise (.outOfBoundsAccess (s.reg 7).toNat) s := by
  simp only [pop, State.sp_eq, memRead_out h, andThen_raise]

/-- The push whose address is in range. -/
theorem push_in {v : Byte} {s : State} (h : (s.reg 7 - 1).toNat < s.cfg.memSize) :
    push v s = .next ((s.setReg 7 (s.reg 7 - 1)).setMem (s.mem.write (s.reg 7 - 1).toNat v)) :=
  push_eq_next.2 ⟨h, rfl⟩

/-- The push whose address is out of range: SP is already decremented. -/
theorem push_out {v : Byte} {s : State} (h : s.cfg.memSize ≤ (s.reg 7 - 1).toNat) :
    push v s = raise (.outOfBoundsAccess (s.reg 7 - 1).toNat) (s.setReg 7 (s.reg 7 - 1)) := by
  simp only [push, decSp, State.sp_eq, State.setReg_reg_same, rSP]
  exact memWrite_out (s := s.setReg 7 (s.reg 7 - 1)) h

/-- Below an address, one step further is one more subtracted. -/
theorem sub_ofNat_succ (x : Byte) (k : Nat) :
    x - 1 - BitVec.ofNat 8 k = x - BitVec.ofNat 8 (k + 1) := by
  rw [BitVec.ofNat_add, BitVec.sub_sub, BitVec.add_comm]
  rfl

/-- Above an address, one step further is one more added. -/
theorem add_ofNat_succ (x : Byte) (k : Nat) :
    x + 1 + BitVec.ofNat 8 k = x + BitVec.ofNat 8 (k + 1) := by
  rw [BitVec.ofNat_add, BitVec.add_assoc, BitVec.add_comm (BitVec.ofNat 8 k)]
  rfl

/-- Distinct distances of at most 256 below an address are distinct addresses. -/
theorem sub_ofNat_ne (x : Byte) {j k : Nat} (hj : 1 ≤ j) (hk : k ≤ 256) (h : j < k) :
    (x - BitVec.ofNat 8 j).toNat ≠ (x - BitVec.ofNat 8 k).toNat := by
  have := x.isLt
  simp only [BitVec.toNat_sub, BitVec.toNat_ofNat]
  omega

/-- Pushes whose addresses are all in range complete, and leave the bytes below the old SP, the first
highest; no other cell changes. -/
theorem pushAll_in {vs : List Byte} {s : State} (hl : vs.length ≤ 256)
    (hr : ∀ k, 1 ≤ k → k ≤ vs.length → (s.reg 7 - BitVec.ofNat 8 k).toNat < s.cfg.memSize) :
    ∃ t, pushAll vs s = .next t ∧
      (∀ k (hk : k < vs.length), t.mem.read (s.reg 7 - BitVec.ofNat 8 (k + 1)).toNat = vs[k]) ∧
      ∀ addr, (∀ k, 1 ≤ k → k ≤ vs.length → addr ≠ (s.reg 7 - BitVec.ofNat 8 k).toNat) →
        t.mem.read addr = s.mem.read addr := by
  induction vs generalizing s with
  | nil => exact ⟨s, rfl, fun k hk => absurd hk (by simp), fun _ _ => rfl⟩
  | cons v vs ih =>
    simp only [List.length_cons] at hl hr ⊢
    have hs : ∀ k, (s.reg 7 - 1 - BitVec.ofNat 8 k) = s.reg 7 - BitVec.ofNat 8 (k + 1) :=
      sub_ofNat_succ (s.reg 7)
    obtain ⟨t, ht, hv, ho⟩ := ih (s := (s.setReg 7 (s.reg 7 - 1)).setMem
        (s.mem.write (s.reg 7 - 1).toNat v)) (by omega) (fun k h1 h2 => by
      rw [State.setMem_reg, State.setReg_reg_same, hs]
      exact hr (k + 1) (by omega) (by omega))
    simp only [State.setMem_reg, State.setReg_reg_same, hs, State.setMem_mem] at hv ho
    refine ⟨t, by rw [pushAll, push_in (hr 1 (by omega) (by omega)), andThen_next, ht], ?_, ?_⟩
    · intro k hk
      cases k with
      | zero =>
        rw [ho]
        · exact Memory.read_write_same _ _ _
        · intro k h1 h2
          exact sub_ofNat_ne (s.reg 7) (by omega) (by omega) (by omega)
      | succ k => simpa using hv k (by omega)
    · intro addr ha
      rw [ho addr fun k h1 h2 => ha (k + 1) (by omega) (by omega)]
      exact Memory.read_write_other _ _ (ha 1 (by omega) (by omega))

/-- Pushes whose first address out of range is the `k`-th fault at that address, the registers below SP as
they were. -/
theorem pushAll_fault {vs : List Byte} {s : State} {k : Nat} (h1 : 1 ≤ k) (hk : k ≤ vs.length)
    (hb : s.cfg.memSize ≤ (s.reg 7 - BitVec.ofNat 8 k).toNat)
    (hr : ∀ j, 1 ≤ j → j < k → (s.reg 7 - BitVec.ofNat 8 j).toNat < s.cfg.memSize) :
    ∃ u, pushAll vs s = raise (.outOfBoundsAccess (s.reg 7 - BitVec.ofNat 8 k).toNat) u ∧
      ∀ i : Fin 8, i ≠ 7 → u.reg i = s.reg i := by
  induction vs generalizing s k with
  | nil => exact absurd hk (by simp; omega)
  | cons v vs ih =>
    obtain rfl | ⟨j, rfl, hj⟩ : k = 1 ∨ ∃ j, k = j + 1 ∧ 1 ≤ j := by
      cases k with
      | zero => omega
      | succ j => cases j with
        | zero => exact .inl rfl
        | succ j => exact .inr ⟨_, rfl, by omega⟩
    · rw [pushAll, push_out hb]
      exact ⟨_, rfl, fun i hi => State.setReg_reg_other _ _ (Ne.symm hi)⟩
    · have hs : ∀ m, ((s.setReg 7 (s.reg 7 - 1)).setMem (s.mem.write (s.reg 7 - 1).toNat v)).reg 7 -
          BitVec.ofNat 8 m = s.reg 7 - BitVec.ofNat 8 (m + 1) := fun m => by
        rw [State.setMem_reg, State.setReg_reg_same]
        exact sub_ofNat_succ (s.reg 7) m
      obtain ⟨u, hu, h3⟩ := ih
        (s := (s.setReg 7 (s.reg 7 - 1)).setMem (s.mem.write (s.reg 7 - 1).toNat v)) (k := j) hj
        (by simpa using hk) (by rw [hs]; exact hb)
        (fun m h1 h2 => by rw [hs]; exact hr (m + 1) (by omega) (by omega))
      rw [hs] at hu
      refine ⟨u, by rw [pushAll, push_in (hr 1 (by omega) (by omega)), andThen_next, hu], fun i hi => ?_⟩
      rw [h3 i hi, State.setMem_reg, State.setReg_reg_other _ _ (Ne.symm hi)]

/-- What pops into registers leave unchanged. -/
theorem popInto_frame {is : List (Fin 8)} {s t : State} (h : popInto is s = .next t) :
    SameRun s t ∧ t.pc = s.pc ∧ t.fl = s.fl ∧ t.out = s.out ∧ t.mem = s.mem ∧
      (∀ i : Fin 8, i ≠ 7 → i ∉ is → t.reg i = s.reg i) := by
  induction is generalizing s with
  | nil => cases h; simp [SameRun, SameSurroundings]
  | cons j is ih =>
    obtain ⟨⟨v, u⟩, hu, h⟩ := andThen_eq_next.1 h
    obtain ⟨-, rfl, rfl⟩ := pop_eq_next.1 hu
    obtain ⟨a, g, k, l, m, n⟩ := ih h
    refine ⟨a, g, k, l, m, fun i hi hj => ?_⟩
    rw [n i hi (fun hm => hj (by simp [hm])), State.setReg_reg_other _ _ (fun e => hj (by simp [e])),
      State.setReg_reg_other _ _ (Ne.symm hi)]

/-- Pops into registers other than SP move SP up by one each. -/
theorem popInto_sp {is : List (Fin 8)} {s t : State} (h : popInto is s = .next t) (h7 : 7 ∉ is) :
    t.reg 7 = s.reg 7 + BitVec.ofNat 8 is.length := by
  induction is generalizing s with
  | nil => cases h; simp
  | cons j is ih =>
    obtain ⟨⟨v, u⟩, hu, h⟩ := andThen_eq_next.1 h
    obtain ⟨-, rfl, rfl⟩ := pop_eq_next.1 hu
    rw [ih h fun m => h7 (by simp [m]), State.setReg_reg_other _ _ (fun e => h7 (by simp [e])),
      State.setReg_reg_same, add_ofNat_succ, List.length_cons]

/-- Pops whose addresses are all in range complete, and load the registers from SP upwards. -/
theorem popInto_in {is : List (Fin 8)} {s : State} (h7 : 7 ∉ is) (hn : is.Nodup)
    (hr : ∀ k < is.length, (s.reg 7 + BitVec.ofNat 8 k).toNat < s.cfg.memSize) :
    ∃ t, popInto is s = .next t ∧
      ∀ k (hk : k < is.length), t.reg is[k] = s.mem.read (s.reg 7 + BitVec.ofNat 8 k).toNat := by
  induction is generalizing s with
  | nil => exact ⟨s, rfl, fun k hk => absurd hk (by simp)⟩
  | cons j is ih =>
    simp only [List.length_cons] at hr ⊢
    obtain ⟨hj, hn⟩ := List.nodup_cons.1 hn
    have hj7 : j ≠ 7 := fun e => h7 (by simp [e])
    have hs : ∀ k, (((s.setReg 7 (s.reg 7 + 1)).setReg j (s.mem.read (s.reg 7).toNat)).reg 7 +
        BitVec.ofNat 8 k) = s.reg 7 + BitVec.ofNat 8 (k + 1) := fun k => by
      rw [State.setReg_reg_other _ _ hj7, State.setReg_reg_same, add_ofNat_succ]
    have h0 : (s.reg 7).toNat < s.cfg.memSize := by simpa using hr 0 (by omega)
    obtain ⟨t, ht, hv⟩ := ih (s := (s.setReg 7 (s.reg 7 + 1)).setReg j (s.mem.read (s.reg 7).toNat))
      (fun m => h7 (by simp [m])) hn (fun k hk => by rw [hs]; exact hr (k + 1) (by omega))
    simp only [hs] at hv
    refine ⟨t, by rw [popInto, pop_in h0, andThen_next, ht], fun k hk => ?_⟩
    cases k with
    | zero =>
      rw [List.getElem_cons_zero, (popInto_frame ht).2.2.2.2.2 j hj7 hj, State.setReg_reg_same]
      simp
    | succ k => exact hv k (by omega)

/-- Pops whose first address out of range is the `k`-th fault at that address. -/
theorem popInto_fault {is : List (Fin 8)} {s : State} (h7 : 7 ∉ is) {k : Nat} (hk : k < is.length)
    (hb : s.cfg.memSize ≤ (s.reg 7 + BitVec.ofNat 8 k).toNat)
    (hr : ∀ j < k, (s.reg 7 + BitVec.ofNat 8 j).toNat < s.cfg.memSize) :
    ∃ u, popInto is s = raise (.outOfBoundsAccess (s.reg 7 + BitVec.ofNat 8 k).toNat) u := by
  induction is generalizing s k with
  | nil => exact absurd hk (by simp)
  | cons j is ih =>
    have hj7 : j ≠ 7 := fun e => h7 (by simp [e])
    cases k with
    | zero =>
      rw [show s.reg 7 + BitVec.ofNat 8 0 = s.reg 7 by simp] at hb ⊢
      exact ⟨s, by rw [popInto, pop_out hb, andThen_raise]⟩
    | succ k =>
      have h0 : (s.reg 7).toNat < s.cfg.memSize := by simpa using hr 0 (by omega)
      have hs : ∀ k, (((s.setReg 7 (s.reg 7 + 1)).setReg j (s.mem.read (s.reg 7).toNat)).reg 7 +
          BitVec.ofNat 8 k) = s.reg 7 + BitVec.ofNat 8 (k + 1) := fun k => by
        rw [State.setReg_reg_other _ _ hj7, State.setReg_reg_same, add_ofNat_succ]
      obtain ⟨u, hu⟩ := ih (s := (s.setReg 7 (s.reg 7 + 1)).setReg j (s.mem.read (s.reg 7).toNat))
        (k := k) (fun m => h7 (by simp [m])) (by simpa using hk) (by rw [hs]; exact hb)
        (fun i hi => by rw [hs]; exact hr (i + 1) (by omega))
      rw [hs] at hu
      exact ⟨u, by rw [popInto, pop_in h0, andThen_next, hu]⟩

/-! ### Halting and interrupts -/

theorem halt_running {s : State} (h : s.run = .running) :
    halt s = (s.setRun .halted).setInvoked (s.invoked ++ s.onHalt.toList) := if_pos h

theorem halt_stopped {s : State} (h : s.run ≠ .running) : halt s = s := if_neg h

/-- What `Halt()` leaves unchanged. -/
theorem halt_frame (s : State) :
    SameSurroundings s (halt s) ∧ (halt s).regs = s.regs ∧ (halt s).pc = s.pc ∧ (halt s).fl = s.fl ∧
      (halt s).mem = s.mem ∧ (halt s).out = s.out := by
  unfold halt SameSurroundings
  split <;> simp

/-- No source is pending exactly where IM & IS is zero. -/
theorem lowestSource_eq_none {p : Byte} : lowestSource p = none ↔ p = 0 := by
  revert p; decide

/-- What an interrupt entry changes and leaves unchanged (rule R194). -/
theorem interruptEntry_frame {n : Fin 8} {s t : State} (h : interruptEntry n s = .next t) :
    SameRun s t ∧ t.fl = s.fl ∧ t.out = s.out ∧ t.reg 5 = 0 ∧ t.reg 6 = 0 ∧ t.reg 7 = s.reg 7 - 9 ∧
      (∀ i : Fin 8, i.val < 5 → t.reg i = s.reg i) ∧ t.pc = t.mem.read (ivtBase + n.val) ∧
      (s.MemoryOk → t.MemoryOk) := by
  obtain ⟨u, hu, h⟩ := andThen_eq_next.1 h
  obtain ⟨v, hv, h⟩ := andThen_eq_next.1 h
  obtain ⟨-, rfl⟩ := memRead_eq_next.1 hv
  cases h
  obtain ⟨a, -, c, d, e, f, g⟩ := pushAll_frame hu
  have hreg : ∀ i : Fin 8, (clearMaskAndStatus s).reg i = if i = 5 ∨ i = 6 then 0 else s.reg i := by
    intro i
    simp only [clearMaskAndStatus, State.setReg_reg, rIM, rIS]
    split <;> split <;> simp_all [eq_comm]
  refine ⟨a, c, d, ?_, ?_, ?_, fun i hi => ?_, rfl, fun hs => ?_⟩
  · rw [State.setPc_reg, e 5 (by decide), hreg]; rfl
  · rw [State.setPc_reg, e 6 (by decide), hreg]; rfl
  · rw [State.setPc_reg, f, hreg]; rfl
  · rw [State.setPc_reg, e i (by omega), hreg, if_neg (by omega)]
  · exact (g (hs.congr rfl rfl)).congr rfl rfl

/-- What the return from an interrupt leaves unchanged (rule R167). -/
theorem interruptReturn_frame {s t : State} (h : interruptReturn s = .next t) :
    SameRun s t ∧ t.out = s.out ∧ t.mem = s.mem ∧ t.reg 5 = 1 := by
  obtain ⟨u, hu, h⟩ := andThen_eq_next.1 h
  obtain ⟨⟨f, w⟩, hw, h⟩ := andThen_eq_next.1 h
  obtain ⟨⟨p, x⟩, hx, h⟩ := andThen_eq_next.1 h
  obtain ⟨-, rfl, rfl⟩ := pop_eq_next.1 hw
  obtain ⟨-, rfl, rfl⟩ := pop_eq_next.1 hx
  cases h
  obtain ⟨a, -, -, d, e, -⟩ := popInto_frame hu
  exact ⟨a, d, e, State.setReg_reg_same _ _ _⟩

end Sys2Proof.Machine
end

