-- ==== Sys2Proof/Laws/Output.lean ====
section
/-! SUPPORT. What the host sees of the output: emitting an event adds its rendering at the end. -/

namespace Sys2Proof.Machine

theorem renderFrom_append (r : OutRender) (past es : List Event) (e : Event) :
    renderFrom r past (es ++ [e]) = renderFrom r past es ++ e.render r (past ++ es) := by
  induction es generalizing past with
  | nil => simp [renderFrom]
  | cons x xs ih => simp [renderFrom, ih]

/-- The order of the events is the order of the text (rule R13). -/
theorem State.console_emit (s : State) (r : OutRender) (e : Event) :
    (s.emit e).console r = s.console r ++ e.render r s.out := by
  simp [State.console, renderFrom_append]

end Sys2Proof.Machine
end

