-- ==== Sys2Proof/Laws/PerInstr.lean ====
section
/-! SUPPORT. Statements made per instruction, about the instruction as written: one lemma for each
constructor. -/

namespace Sys2Proof.Laws.Encoding

/-- Whatever the opcode table: the encoding is the instruction's opcode byte and then its operand bytes,
one more byte than the operand count (rule R80), and the register operands come first (rule R81). -/
def Statement (i : Instr) : Prop :=
  ∀ o : Opc, (encodeWith o i).head? = some (o.byte i.mnemonic) ∧
    (encodeWith o i).length = 1 + i.operandCount ∧ i.registerOperands <+: (encodeWith o i).tail

theorem ldi (a imm : Byte) : Statement (.ldi a imm) := fun _ => ⟨rfl, rfl, [imm], rfl⟩
theorem st (a b : Byte) : Statement (.st a b) := fun _ => ⟨rfl, rfl, [], rfl⟩
theorem add (a b : Byte) : Statement (.add a b) := fun _ => ⟨rfl, rfl, [], rfl⟩
theorem mul (a b : Byte) : Statement (.mul a b) := fun _ => ⟨rfl, rfl, [], rfl⟩
theorem cmp (a b : Byte) : Statement (.cmp a b) := fun _ => ⟨rfl, rfl, [], rfl⟩
theorem push (a : Byte) : Statement (.push a) := fun _ => ⟨rfl, rfl, [], rfl⟩
theorem pop (a : Byte) : Statement (.pop a) := fun _ => ⟨rfl, rfl, [], rfl⟩
theorem call (a : Byte) : Statement (.call a) := fun _ => ⟨rfl, rfl, [], rfl⟩
theorem ret : Statement .ret := fun _ => ⟨rfl, rfl, [], rfl⟩
theorem jmp (a : Byte) : Statement (.jmp a) := fun _ => ⟨rfl, rfl, [], rfl⟩
theorem jeq (a : Byte) : Statement (.jeq a) := fun _ => ⟨rfl, rfl, [], rfl⟩
theorem jne (a : Byte) : Statement (.jne a) := fun _ => ⟨rfl, rfl, [], rfl⟩
theorem prn (a : Byte) : Statement (.prn a) := fun _ => ⟨rfl, rfl, [], rfl⟩
theorem pra (a : Byte) : Statement (.pra a) := fun _ => ⟨rfl, rfl, [], rfl⟩
theorem iret : Statement .iret := fun _ => ⟨rfl, rfl, [], rfl⟩
theorem hlt : Statement .hlt := fun _ => ⟨rfl, rfl, [], rfl⟩

end Sys2Proof.Laws.Encoding
end

