-- ==== Sys2Proof/Laws/Step.lean ====
section
/-! SUPPORT. The step in terms of its parts: which move it makes, what a tick is, and that a placed word is
what the next step runs. -/

namespace Sys2Proof.Machine

/-- The move that `step` makes is the next listed one, or the default. -/
theorem step_eq_perform (s : State) :
    step s = perform exec (s.moves.head?.getD (defaultMove s.run)) (s.setMoves s.moves.tail) := by
  obtain ⟨cfg, regs, pc, fl, mem, cycles, run, onHalt, out, invoked, moves⟩ := s
  cases moves <;> rfl

/-- A run of one step more is a step and then the run. -/
theorem core_run_succ (k : Nat) (s : State) :
    Sys2Proof.core.run (k + 1) s = andThen (step s) (Sys2Proof.core.run k) := by
  simp only [Host.Core.run]
  split
  · next t h => rw [show step s = .next t from h]; rfl
  · next r h => rw [show step s = .fault r from h]; rfl
  · next r h => rw [show step s = .refused r from h]; rfl

/-- A tick of a RUNNING machine is one cycle. -/
theorem step_tick {s : State} (h : s.TickNext) : step s = cycleWith exec (s.setMoves s.moves.tail) := by
  obtain ⟨hr, hm⟩ := h
  have : s.moves.head?.getD (defaultMove s.run) = .tick := by rw [hm]; rfl
  rw [step_eq_perform, this]
  exact if_pos hr

/-- A cycle is the watchdog's halt, an interrupt entry, or a fetch and run. -/
theorem cycleWith_cases (handler : Instr → State → Res State) (s : State) :
    (s.cfg.cycleCeiling < s.cycles + 1 ∧ cycleWith handler s = .next (halt (counted s))) ∨
    (s.cycles + 1 ≤ s.cfg.cycleCeiling ∧ ∃ n, lowestSource s.pending = some n ∧
      cycleWith handler s = interruptEntry n (counted s)) ∨
    (s.cycles + 1 ≤ s.cfg.cycleCeiling ∧ lowestSource s.pending = none ∧
      cycleWith handler s = fetchAndRun handler (counted s)) := by
  have hp : (counted s).pending = s.pending := rfl
  by_cases h : s.cfg.cycleCeiling < s.cycles + 1
  · exact .inl ⟨h, if_pos h⟩
  · have e : cycleWith handler s = interruptOrRun handler (counted s) := if_neg h
    rw [e, interruptOrRun, hp]
    cases hl : lowestSource s.pending with
    | some n => exact .inr (.inl ⟨by omega, n, rfl, rfl⟩)
    | none => exact .inr (.inr ⟨by omega, rfl, rfl⟩)

/-- The fetch of three bytes in range. -/
theorem fetch_in {s : State} (h : s.pc.toNat + 2 < s.cfg.memSize) :
    fetch s = .next (s.mem.read s.pc.toNat, s.mem.read (s.pc.toNat + 1), s.mem.read (s.pc.toNat + 2)) := by
  simp only [fetch, memRead_in (show s.pc.toNat < s.cfg.memSize by omega),
    memRead_in (show s.pc.toNat + 1 < s.cfg.memSize by omega), memRead_in h, andThen_next]

/-- A fetch that completes was in range and read the three bytes. -/
theorem fetch_eq_next {s : State} {w : Byte × Byte × Byte} :
    fetch s = .next w ↔ s.pc.toNat + 2 < s.cfg.memSize ∧
      w = (s.mem.read s.pc.toNat, s.mem.read (s.pc.toNat + 1), s.mem.read (s.pc.toNat + 2)) := by
  constructor
  · intro h
    obtain ⟨a, ha, h⟩ := andThen_eq_next.1 h
    obtain ⟨b, hb, h⟩ := andThen_eq_next.1 h
    obtain ⟨c, hc, h⟩ := andThen_eq_next.1 h
    rw [memRead_eq_next] at ha hb hc
    cases h
    exact ⟨hc.1, by rw [ha.2, hb.2, hc.2]⟩
  · rintro ⟨h, rfl⟩
    exact fetch_in h

/-- Where an instruction stands at PC, fetching and running is its handler. -/
theorem fetchAndRun_instrAt (handler : Instr → State → Res State) {s : State} {i : Instr}
    (h : s.InstrAt i) : fetchAndRun handler s = handler i s := by
  simp only [fetchAndRun, fetch_in h.1, andThen_next, h.2]

/-- Where an unknown opcode stands at PC, it is reported and the machine halts. -/
theorem fetchAndRun_unknown (handler : Instr → State → Res State) {s : State}
    (h : s.pc.toNat + 2 < s.cfg.memSize) (hu : s.cfg.opc.lookup (s.mem.read s.pc.toNat) = none) :
    fetchAndRun handler s = .next (halt (s.emit (.decodeError (s.mem.read s.pc.toNat) s.pc))) := by
  simp only [fetchAndRun, fetch_in h, andThen_next, decodeWith_eq, hu]

/-- The kind of a fault is a fatal one (rule R180). -/
theorem Fault.kind_fatal {f : Fault} {k : ErrorKind} (h : f.kind = some k) :
    k ≠ .unknownOpcode ∧ k ≠ .watchdogExceeded := by
  cases f <;> cases h <;> decide

/-- A cycle that faults has the error kind of its fault. -/
theorem cycleErrorWith_fault {handler : Instr → State → Res State} {s : State} {f : Fault}
    (h : cycleWith handler s = .fault f) : cycleErrorWith handler s = f.kind := by
  have hc : ¬ s.cfg.cycleCeiling < (counted s).cycles := by
    intro hc
    rw [cycleWith, if_pos hc] at h
    cases h
  rw [cycleErrorWith, if_neg hc, h]

/-- WatchdogExceeded is the kind of exactly the cycles that the watchdog halts. -/
theorem cycleErrorWith_watchdog {handler : Instr → State → Res State} {s : State} :
    cycleErrorWith handler s = some .watchdogExceeded ↔ s.cfg.cycleCeiling < s.cycles + 1 := by
  refine ⟨fun h => ?_, fun h => if_pos h⟩
  by_contra hc
  rw [cycleErrorWith, if_neg (show ¬ s.cfg.cycleCeiling < (counted s).cycles from hc)] at h
  split at h
  · exact (Fault.kind_fatal h).2 rfl
  · cases h
  · split at h <;> cases h

/-- UnknownOpcode is the kind only of cycles that report one and halt. -/
theorem cycleErrorWith_unknown {handler : Instr → State → Res State} {s : State}
    (h : cycleErrorWith handler s = some .unknownOpcode) :
    cycleWith handler s =
      .next (halt ((counted s).emit (.decodeError (s.mem.read s.pc.toNat) s.pc))) := by
  rw [cycleErrorWith] at h
  split at h
  · cases h
  · next hc =>
    split at h
    · exact absurd rfl (Fault.kind_fatal h).1
    · cases h
    · next t ht =>
      split at h
      · next hu =>
        rcases cycleWith_cases handler s with ⟨a, -⟩ | ⟨-, n, a, -⟩ | ⟨-, -, e⟩
        · exact absurd a hc
        · rw [lowestSource_eq_none.2 hu.1] at a
          cases a
        · rw [e] at ht ⊢
          obtain ⟨w, hw, -⟩ := andThen_eq_next.1 ht
          exact fetchAndRun_unknown handler (fetch_eq_next.1 hw).1 hu.2
      · cases h

/-- A placed word is what the very next step runs: in a machine with the default opcodes, at least three
cells and a legal ceiling, the next move is a tick, nothing stands before it, and the instruction at PC is
the one the decoder reads from the word. -/
theorem withFetchWord_ready (s : State) {nbits w : Nat} {i : Instr} (hm : 3 ≤ s.cfg.memSize)
    (hc : 1 ≤ s.cfg.cycleCeiling) (ho : s.cfg.opc = Opc.default)
    (hi : decodeTableWord nbits w = some i) :
    (s.withFetchWord nbits w).TickNext ∧
      (s.withFetchWord nbits w).cycles < (s.withFetchWord nbits w).cfg.cycleCeiling ∧
      (s.withFetchWord nbits w).pending = 0 ∧ (s.withFetchWord nbits w).InstrAt i := by
  have hpc := s.pc.isLt
  have hp : placeAddress s + 2 < s.cfg.memSize ∧ placeAddress s < 256 := by
    unfold placeAddress
    split <;> omega
  have hn : (s.withFetchWord nbits w).pc.toNat = placeAddress s := by
    change (BitVec.ofNat 8 (placeAddress s)).toNat = _
    rw [BitVec.toNat_ofNat]
    omega
  refine ⟨⟨rfl, rfl⟩, ?_, ?_, ?_⟩
  · change min s.cycles (s.cfg.cycleCeiling - 1) < s.cfg.cycleCeiling
    omega
  · change (s.setReg 6 (s.is &&& ~~~s.im)).reg 5 &&& (s.setReg 6 (s.is &&& ~~~s.im)).reg 6 = 0
    rw [State.setReg_reg_same, State.setReg_reg_other _ _ (by decide)]
    ext k hk
    simp only [State.im_eq, BitVec.getElem_and, BitVec.getElem_not]
    cases (s.reg 5)[k] <;> simp
  · refine ⟨by rw [hn]; exact hp.1, ?_⟩
    rw [hn]
    change decodeWith s.cfg.opc
      ((((s.mem.write (placeAddress s) _).write _ _).write _ _).read _)
      ((((s.mem.write (placeAddress s) _).write _ _).write _ _).read _)
      ((((s.mem.write (placeAddress s) _).write _ _).write _ _).read _) = _
    simp only [Memory.read_write, ho]
    unfold decodeTableWord decode at hi
    simp only [show ¬ placeAddress s = placeAddress s + 2 by omega,
      show ¬ placeAddress s = placeAddress s + 1 by omega,
      show ¬ placeAddress s + 1 = placeAddress s + 2 by omega, if_true, if_false]
    split at hi
    · next e => cases hi; exact e
    · cases hi

end Sys2Proof.Machine
end

