-- ==== Sys2Proof/Tests/Slice0.lean ====
section
/-! SUPPORT. The model's own tests: decoding by words written out from the spec's encodings, one step of each
instruction against the spec's examples and vectors (95_test_vectors.md, "V-..." and "P..."), and for each
statement with hypotheses a witness that meets them. -/

namespace Sys2Proof.Tests

open Sys2Proof Sys2Proof.Machine

/-! ### Small states -/

/-- A memory image from listed cells. -/
def image (cells : List Host.Cell) : Memory := cells.foldl (fun m c => Memory.write m c.1 c.2) []

/-- Bytes at consecutive addresses. -/
def bytesAt : Nat → List Byte → List Host.Cell
  | _, [] => []
  | addr, b :: bs => (addr, b) :: bytesAt (addr + 1) bs

/-- The reset state, started, with bytes from an address on where PC stands, other cells, and one tick listed. -/
def ready (pc : Byte) (bytes : List Byte) (others : List Host.Cell := []) : State :=
  (((State.reset.setMem (image (bytesAt pc.toNat bytes ++ others))).setRun .running).setMoves [.tick]).setPc pc

/-- The same machine with `MEM_SIZE` = 128 (the configuration of V-LS5 and V-ST5). -/
def small (s : State) : State := { s with cfg := { s.cfg with memSize := 128 } }

/-- The same machine with another `CYCLE_CEILING`. -/
def withCeiling (n : Nat) (s : State) : State := { s with cfg := { s.cfg with cycleCeiling := n } }

/-- What a next state shows. -/
def after {α : Type} (x : Res State) (f : State → α) : Option α :=
  match x with
  | .next t => some (f t)
  | .fault _ => none
  | .refused _ => none

/-- The address that an OutOfBoundsAccess reports. -/
def outOfBounds {α : Type} (x : Res α) : Option Nat :=
  match x with
  | .fault (.outOfBoundsAccess addr _) => some addr
  | _ => none

/-- The index that an InvalidRegisterIndex reports. -/
def badIndex {α : Type} (x : Res α) : Option Byte :=
  match x with
  | .fault (.invalidRegisterIndex a _) => some a
  | _ => none

/-! ### Decoding: the words of the spec's encoding tables -/

theorem test_decode_load_store :
    decode 0b10011001 0b00000000 0b00001000 = .ok (.ldi 0 8) ∧
    decode 0b10011001 0x07 0xF4 = .ok (.ldi 7 0xF4) ∧
    decode 0b10011010 0x02 0x00 = .ok (.st 2 0) := by decide

theorem test_decode_alu :
    decode 0b10101000 0x02 0x03 = .ok (.add 2 3) ∧
    decode 0b10101010 0b00000000 0b00000001 = .ok (.mul 0 1) ∧
    decode 0b10100000 0x00 0x02 = .ok (.cmp 0 2) := by decide

theorem test_decode_stack :
    decode 0b01001101 0x01 0xFF = .ok (.push 1) ∧ decode 0b01001100 0x01 0xFF = .ok (.pop 1) := by decide

theorem test_decode_control :
    decode 0b01001000 0x01 0xFF = .ok (.call 1) ∧ decode 0b00001001 0xFF 0xFF = .ok .ret ∧
    decode 0b01010000 0x02 0xFF = .ok (.jmp 2) ∧ decode 0b01010001 0x02 0xFF = .ok (.jeq 2) ∧
    decode 0b01010010 0x03 0xFF = .ok (.jne 3) := by decide

theorem test_decode_system :
    decode 0b01000011 0x00 0xFF = .ok (.prn 0) ∧ decode 0b01000010 0x03 0xFF = .ok (.pra 3) ∧
    decode 0b00001011 0xFF 0xFF = .ok .iret ∧ decode 0b00000001 0xFF 0xFF = .ok .hlt := by decide

/-- R90: a zero byte and the bytes 0xC0..0xFF are unknown, and so is a neighbour of HLT. -/
theorem test_decode_unknown :
    decode 0x00 0 0 = .error (.unknownOpcode 0x00) ∧ decode 0xC0 0 0 = .error (.unknownOpcode 0xC0) ∧
    decode 0xFF 0 0 = .error (.unknownOpcode 0xFF) ∧ decode 0x02 0 0 = .error (.unknownOpcode 0x02) := by decide

/-- R81, R87: the operand bytes come through whole, in their order. -/
theorem test_decode_raw_operands :
    decode 0x99 0xFF 0x80 = .ok (.ldi 0xFF 0x80) ∧ decode 0xA8 0x08 0x09 = .ok (.add 0x08 0x09) := by decide

/-- 95_test_vectors.md section 4, assembly to bytes. -/
theorem test_encode :
    encode (.ldi 7 0xF4) = [0x99, 0x07, 0xF4] ∧ encode (.add 2 3) = [0xA8, 0x02, 0x03] ∧
    encode (.push 1) = [0x4D, 0x01] ∧ encode (.jne 3) = [0x52, 0x03] ∧ encode .iret = [0x0B] := by decide

/-- The table's bit numbering: the first byte is bits 7..0. -/
theorem test_table_word :
    decodeTableWord 24 0x080099 = some (.ldi 0 8) ∧ decodeTableWord 16 0x0043 = some (.prn 0) ∧
    decodeTableWord 8 0x01 = some .hlt ∧ decodeTableWord 8 0x00 = none := by decide

theorem test_truncated :
    decodeBytesWith Opc.default [0x99, 0x00] = .error .truncated ∧
    decodeBytesWith Opc.default [] = .error .truncated := by decide

/-! ### Well-formedness: an ill-formed term for each register operand, and none for an immediate -/

theorem test_ill_formed_first_operand :
    ¬ (Instr.ldi 8 0).WellFormed ∧ ¬ (Instr.st 8 0).WellFormed ∧ ¬ (Instr.add 8 0).WellFormed ∧
    ¬ (Instr.mul 0xFF 0).WellFormed ∧ ¬ (Instr.cmp 8 0).WellFormed ∧ ¬ (Instr.push 8).WellFormed ∧
    ¬ (Instr.pop 8).WellFormed ∧ ¬ (Instr.call 8).WellFormed ∧ ¬ (Instr.jmp 0x80).WellFormed ∧
    ¬ (Instr.jeq 9).WellFormed ∧ ¬ (Instr.jne 9).WellFormed ∧ ¬ (Instr.prn 8).WellFormed ∧
    ¬ (Instr.pra 8).WellFormed := by decide

theorem test_ill_formed_second_operand :
    ¬ (Instr.st 0 8).WellFormed ∧ ¬ (Instr.add 7 8).WellFormed ∧ ¬ (Instr.mul 0 0x10).WellFormed ∧
    ¬ (Instr.cmp 0 8).WellFormed := by decide

theorem test_well_formed :
    (Instr.ldi 7 0xFF).WellFormed ∧ (Instr.st 7 7).WellFormed ∧ Instr.ret.WellFormed ∧
    Instr.iret.WellFormed ∧ Instr.hlt.WellFormed := by decide

/-! ### One step of each instruction -/

/-- R120's example, and V-LS3 into SP. -/
theorem test_ldi :
    after (step (ready 0 [0x99, 0x00, 0x08])) (fun t => (t.reg 0, t.pc, t.cycles)) = some (0x08, 0x03, 1) ∧
    after (step (ready 0 [0x99, 0x07, 0x80])) (fun t => (t.sp, t.fl)) = some (0x80, 0) := by decide

/-- V-LS2. -/
theorem test_ldi_bad_register : badIndex (step (ready 0 [0x99, 0x08, 0x01])) = some 8 := by decide

/-- V-LS1's store, and cycle 11 of P3: the address is the first operand's register, the value the second's. -/
theorem test_st :
    after (step ((ready 3 [0x9A, 0x00, 0x00]).setReg 0 0x40)) (fun t => (t.mem.read 0x40, t.reg 0, t.pc)) =
      some (0x40, 0x40, 0x06) ∧
    after (step ((ready 3 [0x9A, 0x02, 0x00]).setReg 2 0x80 |>.setReg 0 0x0A))
      (fun t => (t.mem.read 0x80, t.mem.read 0x0A)) = some (0x0A, 0x00) := by decide

/-- V-LS5. -/
theorem test_st_out_of_bounds :
    outOfBounds (step (small ((ready 3 [0x9A, 0x00, 0x00]).setReg 0 0x80))) = some 128 := by decide

/-- The table of section 2.1: 200 + 100, and 3 + 255 into the first operand only. -/
theorem test_add :
    after (step ((ready 0 [0xA8, 0x00, 0x01]).setReg 0 200 |>.setReg 1 100))
      (fun t => (t.reg 0, t.reg 1, t.fl)) = some (44, 100, 0) ∧
    after (step ((ready 0 [0xA8, 0x00, 0x01]).setReg 0 3 |>.setReg 1 255)) (·.reg 0) = some 2 := by decide

/-- V-ALU3. -/
theorem test_add_bad_register : badIndex (step (ready 0 [0xA8, 0x00, 0x08])) = some 8 := by decide

/-- The table of section 2.1: 8 * 9 and 255 * 255. -/
theorem test_mul :
    after (step ((ready 0 [0xAA, 0x00, 0x01]).setReg 0 8 |>.setReg 1 9)) (fun t => (t.reg 0, t.pc)) =
      some (72, 3) ∧
    after (step ((ready 0 [0xAA, 0x00, 0x01]).setReg 0 255 |>.setReg 1 255)) (·.reg 0) = some 1 := by decide

/-- The table of section 2.1: 255 is above 1, and 0 below 255. -/
theorem test_cmp_unsigned :
    after (step ((ready 0 [0xA0, 0x00, 0x01]).setReg 0 255 |>.setReg 1 1)) (·.fl) = some 0x02 ∧
    after (step ((ready 0 [0xA0, 0x00, 0x01]).setReg 0 0 |>.setReg 1 255)) (·.fl) = some 0x04 := by decide

/-- V-ALU2, with a FL that held other bits. -/
theorem test_cmp_equal :
    after (step ((ready 0 [0xA0, 0x07, 0x07]).setFl 0xFF)) (fun t => (t.fl, t.sp)) = some (0x01, 0xF4) := by decide

/-- R142's example, and V-ST1: PUSH R7 stores the decremented SP. -/
theorem test_push :
    after (step ((ready 0x11 [0x4D, 0x01]).setReg 1 0x11)) (fun t => (t.sp, t.mem.read 0xF3, t.pc)) =
      some (0xF3, 0x11, 0x13) ∧
    after (step (ready 0 [0x4D, 0x07])) (fun t => (t.sp, t.mem.read 0xF3)) = some (0xF3, 0xF3) := by decide

/-- V-ST3's wrap at SP = 0, and V-ST5's fault. -/
theorem test_push_edges :
    after (step ((ready 0 [0x4D, 0x00]).setReg 7 0 |>.setReg 0 0xAB)) (fun t => (t.sp, t.mem.read 0xFF)) =
      some (0xFF, 0xAB) ∧
    outOfBounds (step (small (ready 0 [0x4D, 0x00]))) = some 243 := by decide

/-- V-ST4, and R143's example. -/
theorem test_pop :
    after (step (ready 0 [0x4C, 0x00] [(0xF4, 0x5A)])) (fun t => (t.reg 0, t.sp)) = some (0x5A, 0xF5) ∧
    after (step ((ready 0x19 [0x4C, 0x01] [(0xF3, 0x11)]).setReg 7 0xF3)) (fun t => (t.reg 1, t.sp, t.pc)) =
      some (0x11, 0xF4, 0x1B) := by decide

/-- V-ST2: POP R7 gives the popped byte plus one. -/
theorem test_pop_sp :
    after (step ((ready 9 [0x4C, 0x07] [(0x80, 0x33)]).setReg 7 0x80)) (·.sp) = some 0x34 := by decide

/-- R150's example, and V-CT1. -/
theorem test_call :
    after (step ((ready 6 [0x48, 0x01]).setReg 1 0x11)) (fun t => (t.sp, t.mem.read 0xF3, t.pc)) =
      some (0xF3, 0x08, 0x11) ∧
    after (step (ready 0 [0x48, 0x07])) (fun t => (t.sp, t.mem.read 0xF3, t.pc)) =
      some (0xF3, 0x02, 0xF3) := by decide

/-- R151's example. -/
theorem test_ret :
    after (step ((ready 0x1B [0x09] [(0xF3, 0x08)]).setReg 7 0xF3)) (fun t => (t.pc, t.sp)) =
      some (0x08, 0xF4) := by decide

/-- R152's example. -/
theorem test_jmp : after (step ((ready 0x0F [0x50, 0x02]).setReg 2 0x20)) (·.pc) = some 0x20 := by decide

/-- R153's example. -/
theorem test_jeq :
    after (step (((ready 0x10 [0x51, 0x03]).setReg 3 0x20).setFl 0x01)) (·.pc) = some 0x20 ∧
    after (step (((ready 0x10 [0x51, 0x03]).setReg 3 0x20).setFl 0x04)) (·.pc) = some 0x12 := by decide

/-- V-CT3: an untaken jump does not look at its operand. -/
theorem test_jeq_untaken_bad_register : after (step (ready 0 [0x51, 0x09])) (·.pc) = some 2 := by decide

/-- R154's example. -/
theorem test_jne :
    after (step (((ready 0x14 [0x52, 0x03]).setReg 3 0x0C).setFl 0x02)) (·.pc) = some 0x0C ∧
    after (step (((ready 0x14 [0x52, 0x03]).setReg 3 0x0C).setFl 0x01)) (·.pc) = some 0x16 := by decide

/-- V-CT4. -/
theorem test_jne_taken_bad_register : badIndex (step (ready 0 [0x52, 0x09])) = some 9 := by decide

/-- R165's example, rendered; and V-IO1's 255. -/
theorem test_prn :
    after (step ((ready 9 [0x43, 0x00]).setReg 0 72)) (fun t => (t.out, t.pc)) = some ([.prn 72], 0x0B) ∧
    decimalDigits 72 = ['7', '2'] ∧ decimalDigits 255 = ['2', '5', '5'] ∧ decimalDigits 0 = ['0'] := by decide

/-- One `OUT_RENDER`: a comma between emissions, control codes as a dot, the PC of a report in hexadecimal. -/
def commas : OutRender where
  before past _ := if past = [] then [] else [',']
  after _ _ := []
  otherChar _ := ['.']
  between _ _ := [' ']
  pcRadix := 16
  pcRadix_ok := by decide
  pcCapitals := true

/-- S7's numeral, V-IO2's character, a control code, and a report of V-CT5's form at 0xFD. -/
theorem test_console :
    ((((State.reset.emit (.prn 72)).emit (.pra 0x41)).emit (.pra 10)).emit (.decodeError 0x0A 0xFD)).console commas =
      ['7', '2', ',', 'A', ',', '.', ',', '0', '0', '0', '0', '1', '0', '1', '0', ' ', 'F', 'D'] := by decide

/-- Whatever `OUT_RENDER` is, the words of S7's numeral and V-IO2's character are those; codes 10, 127 and 128 are
its own. -/
theorem test_event_text (r : OutRender) :
    Event.text r (.prn 72) = ['7', '2'] ∧ Event.text r (.pra 0x41) = ['A'] ∧
    Event.text r (.pra 10) = r.otherChar 10 ∧ Event.text r (.pra 127) = r.otherChar 127 ∧
    Event.text r (.pra 128) = r.otherChar 128 := ⟨rfl, rfl, rfl, rfl, rfl⟩

/-- V-IO3. -/
theorem test_prn_bad_register : badIndex (step (ready 0 [0x43, 0x08])) = some 8 := by decide

/-- R166's example, rendered. -/
theorem test_pra :
    after (step ((ready 3 [0x42, 0x03]).setReg 3 0x41)) (fun t => (t.out, t.pc)) = some ([.pra 0x41], 5) ∧
    asciiChar 0x41 = some 'A' := by decide

/-- R167's example. -/
theorem test_iret :
    after (step (((ready 0x1F [0x0B]
      (bytesAt 0xEB [0x00, 0x00, 0x00, 0x00, 0x0F, 0x11, 0xF8, 0x00, 0x0F])).setReg 7 0xEB).setReg 6 0x10))
      (fun t => (t.regs.toList, t.fl, t.pc)) =
      some ([0xF8, 0x11, 0x0F, 0x00, 0x00, 0x01, 0x00, 0xF4], 0x00, 0x0F) := by decide

/-- V-INT4: IRET with no interrupt in progress. -/
theorem test_iret_bare :
    after (step (ready 0 [0x0B] (bytesAt 0xF4 [0x10, 0x11, 0x12, 0x13, 0x14, 0x15, 0x16, 0x17, 0x18])))
      (fun t => (t.regs.toList, t.fl, t.pc)) =
      some ([0x16, 0x15, 0x14, 0x13, 0x12, 0x01, 0x10, 0xFD], 0x17, 0x18) := by decide

/-- R168's example, with a callback registered. -/
theorem test_hlt :
    after (step ((ready 0x0B [0x01]).setOnHalt (some 5))) (fun t => (t.run, t.pc, t.invoked, t.out)) =
      some (.halted, 0x0C, [5], []) := by decide

/-- V-TOP1 and V-TOP2: HLT halts at 0xFD, and at 0xFE cannot be fetched. -/
theorem test_hlt_at_the_top :
    after (step (ready 0xFD [0x01])) (fun t => (t.run, t.pc)) = some (.halted, 0xFE) ∧
    outOfBounds (step (ready 0xFE [0x01])) = some 256 := by decide

/-! ### One step of the machine -/

/-- V-TOP3: the handler has run, the advance faults, PC is not written. -/
theorem test_advance_past_the_top :
    (match step (ready 0xFD [0x99, 0x00, 0x05]) with
      | .fault (.outOfBoundsAccess addr left) => some (addr, left.reg 0, left.pc, left.run)
      | _ => none) = some (256, 0x05, 0xFD, .faulted) := by decide

/-- P5. -/
theorem test_unknown_opcode :
    after (step ((ready 3 [0x00]).setOnHalt (some 5))) (fun t => (t.out, t.run, t.pc, t.invoked)) =
      some ([.decodeError 0x00 3], .halted, 3, [5]) ∧
    binaryDigits 0xAA = ['1', '0', '1', '0', '1', '0', '1', '0'] := by decide

/-- R187: five kinds with the ordinals 1..5; and a forced halt, a fatal fault and a plain cycle by their kinds. -/
theorem test_error_kinds :
    [ErrorKind.outOfBoundsAccess, .invalidRegisterIndex, .unknownOpcode, .invalidALUOperation,
      .watchdogExceeded].map ErrorKind.code = [1, 2, 3, 4, 5] ∧
    cycleErrorWith exec (ready 3 [0x00]) = some .unknownOpcode ∧
    cycleErrorWith exec (withCeiling 3 ((ready 3 [0x00]).setCycles 3)) = some .watchdogExceeded ∧
    cycleErrorWith exec (ready 0 [0x43, 0x08]) = some .invalidRegisterIndex ∧
    cycleErrorWith exec (ready 0xFE [0x00]) = some .outOfBoundsAccess ∧
    cycleErrorWith exec (ready 0 [0x43, 0x00]) = none := by decide

/-- V-INT2: source 1 of 1 and 3; IM and IS cleared, the frame, the vector. -/
theorem test_interrupt_entry :
    after (step (((ready 6 [0x01] [(0xF9, 0x40), (0xFB, 0x60)]).setReg 5 0x0A).setReg 6 0x0E))
      (fun t => (t.regs.toList, t.pc, t.run, t.mem.read 0xF3)) =
      some ([0, 0, 0, 0, 0, 0, 0, 0xEB], 0x40, .running, 6) := by decide

/-- Cycle 8 of P4: the nine bytes of the frame, read upwards from 0xEB. -/
theorem test_interrupt_frame :
    after (step ((((ready 0x0F [0x50, 0x02] [(0xF8, 0x11)]).setReg 0 0xF8).setReg 1 0x11
      |>.setReg 2 0x0F).setReg 5 1 |>.setReg 6 1))
      (fun t => (List.range 9).map fun k => t.mem.read (0xEB + k)) =
      some [0x00, 0x00, 0x00, 0x00, 0x0F, 0x11, 0xF8, 0x00, 0x0F] := by decide

/-- V-INT1: a masked request is not serviced. -/
theorem test_masked_request :
    after (step ((ready 3 [0x99, 0x00, 0x07]).setReg 6 1)) (fun t => (t.reg 0, t.is, t.pc)) =
      some (7, 1, 6) := by decide

/-- V-WD1 and V-WD3: the firing past the ceiling only halts, a pending interrupt or not. -/
theorem test_watchdog :
    after (step ((withCeiling 3 ((ready 3 [0x50, 0x00]).setReg 0 3)).setCycles 3))
      (fun t => (t.run, t.pc, t.cycles, t.out)) = some (.halted, 3, 4, []) ∧
    after (step ((withCeiling 2 (((ready 6 [0x01]).setReg 5 1).setReg 6 1)).setCycles 2))
      (fun t => (t.run, t.pc, t.is, t.sp)) = some (.halted, 6, 1, 0xF4) := by decide

/-- R196: the timer's bit is set beside the others. -/
theorem test_timer :
    after (step (((ready 0 []).setMoves [.timer]).setReg 6 0x0E)) (fun t => (t.is, t.cycles, t.moves)) =
      some (0x0F, 0, []) := by decide

/-- R234, R235: with nothing listed the reset state is started, and its PC is 0. -/
theorem test_start : after (step State.reset) (fun t => (t.run, t.pc, t.cycles)) = some (.running, 0, 0) := by
  decide

/-- R232: the loader's poke. -/
theorem test_poke :
    after (step (State.reset.setMoves [.poke 0xFF 0x99])) (fun t => (t.mem, t.run)) =
      some ([(0xFF, 0x99)], .idle) ∧
    outOfBounds (step (State.reset.setMoves [.poke 256 0])) = some 256 := by decide

/-- What the host places is what the next step runs. -/
theorem test_with_fetch_word :
    after (step (State.reset.withFetchWord 24 0x080099)) (fun t => (t.reg 0, t.pc)) = some (8, 3) ∧
    after (step (State.reset.withFetchWord 8 0x01)) (fun t => (t.run, t.pc)) = some (.halted, 1) := by decide

/-- Writing what an unlisted cell reads as removes the entry; other cells keep their order. -/
theorem test_memory_canonical :
    image [(9, 1), (3, 2), (9, 0)] = [(3, 2)] ∧ image [(9, 1), (3, 2)] = [(3, 2), (9, 1)] ∧
    Memory.read (image [(9, 1), (3, 2)]) 9 = 1 := by decide

/-! ### Witnesses: for every statement with hypotheses, states and operands that meet them

The values are at the boundaries: the last PC that the generic advance leaves alone, operand byte 7 and 8, a
cell just inside and just outside memory, SP at its wrap, the ceiling reached and just not reached. -/

/-- The state that an operation answers, the reset state where it answers none. -/
def stateOf (x : Res State) : State :=
  match x with
  | .next t => t
  | .fault _ => State.reset
  | .refused _ => State.reset

/-- Another legal opcode table: two of the default bytes exchanged, and one moved. -/
def otherOpc : Opc := { Opc.default with add := 0xA0, cmp := 0xA8, hlt := 0x01, ret := 0x3F }

theorem other_opc_legal : otherOpc.Legal := by decide

theorem witness_InvariantHoldsAtLaunch :
    (State.construct { defaultConfig with memSize := 128 } (image [(127, 1)])).MemoryOk ∧
    State.reset.MemoryOk :=
  ⟨⟨by decide, by decide⟩, ⟨by decide, by decide⟩⟩

theorem witness_EveryStepKeepsInv :
    (ready 6 [0x4D, 0x01]).Inv ∧ Completes (step (ready 6 [0x4D, 0x01])) ∧
    State.reset.Inv ∧ Completes (step State.reset) :=
  ⟨⟨⟨by decide, by decide⟩, rfl, ⟨by decide, by decide⟩, ⟨nofun, by decide⟩, nofun⟩, ⟨_, rfl⟩,
    ⟨⟨by decide, by decide⟩, rfl, ⟨by decide, nofun⟩, ⟨by decide, nofun⟩, nofun⟩, ⟨_, rfl⟩⟩

/-- Loading a HLT, starting, ticking: a reachable state that has halted. -/
theorem witness_ReachableStatesMeetInv : ∃ s : State, Reachable s ∧ s.run = .halted :=
  ⟨_, .step (.step (.step (.launch defaultConfig [] [.poke 0 0x01, .start, .tick]
    ⟨by decide, by decide⟩) rfl) rfl) rfl, rfl⟩

theorem witness_DecodeOfEncode : Opc.default.Legal ∧ otherOpc.Legal := by decide

theorem witness_EncodeOfDecode :
    decodeWith otherOpc 0xA0 0xFF 0x08 = .ok (.add 0xFF 0x08) ∧
    decodeWith otherOpc 0x3F 0xFF 0x08 = .ok .ret := by decide

theorem witness_UnknownOpcodesAreRefused :
    (∀ m ∈ Mnemonic.all, Opc.default.byte m ≠ 0xBF) ∧ otherOpc.Legal ∧ 0xC0 ≤ (0xC0 : Byte).toNat ∧
    0xC0 ≤ (0xFF : Byte).toNat := by decide

theorem witness_OperandCountIsTheTopTwoBits :
    otherOpc.Legal ∧ decodeWith otherOpc 0xA8 0 0 = .ok (.cmp 0 0) ∧
    decodeWith otherOpc 0x3F 0 0 = .ok .ret := by decide

/-- The premises of the 3-byte register instructions: LDI, ADD, MUL, CMP. -/
theorem witness_three_bytes :
    (ready 0xFC []).pc.toNat + 3 ≤ 255 ∧ 8 ≤ (8 : Byte).toNat ∧ Opc.default.Legal := by decide

theorem witness_LdiLoadsTheImmediate :
    exec (.ldi (regByte 7) 0xFF) (ready 0xFC []) = .next (((ready 0xFC []).setReg 7 0xFF).setPc 0xFF) ∧
    badIndex (exec (.ldi 8 0) (ready 0xFC [])) = some 8 := ⟨rfl, by decide⟩

theorem witness_StStoresAtTheRegisterAddress :
    ((ready 0xFC []).setReg 0 0xFF |>.reg 0).toNat < (ready 0xFC []).cfg.memSize ∧
    ((small (ready 0xFC [])).setReg 0 0x7F |>.reg 0).toNat < (small (ready 0xFC [])).cfg.memSize ∧
    (small (ready 0xFC [])).cfg.memSize ≤ ((small (ready 0xFC [])).setReg 0 0x80 |>.reg 0).toNat ∧
    (ready 0xFC []).pc.toNat + 3 ≤ 255 ∧ 8 ≤ (8 : Byte).toNat ∧
    badIndex (exec (.st 8 0) (ready 0 [])) = some 8 ∧ badIndex (exec (.st 7 8) (ready 0 [])) = some 8 := by
  decide

theorem witness_AddIsModulo256 :
    after (exec (.add (regByte 7) (regByte 7)) (ready 0xFC [])) (fun t => (t.reg 7, t.pc)) = some (0xE8, 0xFF) ∧
    badIndex (exec (.add 8 0) (ready 0 [])) = some 8 ∧ badIndex (exec (.add 0 8) (ready 0 [])) = some 8 := by
  decide

theorem witness_MulIsModulo256 :
    after (exec (.mul (regByte 0) (regByte 0)) ((ready 0xFC []).setReg 0 0x10)) (·.reg 0) = some 0 ∧
    badIndex (exec (.mul 8 0) (ready 0 [])) = some 8 ∧ badIndex (exec (.mul 0 8) (ready 0 [])) = some 8 := by
  decide

theorem witness_CmpSetsExactlyOneFlag :
    after (exec (.cmp (regByte 7) (regByte 0)) (ready 0xFC [])) (·.fl) = some 2 ∧
    badIndex (exec (.cmp 8 0) (ready 0 [])) = some 8 ∧ badIndex (exec (.cmp 0 8) (ready 0 [])) = some 8 := by
  decide

/-- SP = 0 pushes at 0xFF, the last cell of 256; with 128 cells, SP = 0x80 pushes in and SP = 0x81 out of range. -/
theorem witness_PushStoresBelowSp :
    (((ready 0xFD []).setReg 7 0).reg 7 - 1).toNat < ((ready 0xFD []).setReg 7 0).cfg.memSize ∧
    (((small (ready 0xFD [])).setReg 7 0x80).reg 7 - 1).toNat < (small (ready 0xFD [])).cfg.memSize ∧
    (small (ready 0xFD [])).cfg.memSize ≤ (((small (ready 0xFD [])).setReg 7 0x81).reg 7 - 1).toNat ∧
    (ready 0xFD []).pc.toNat + 2 ≤ 255 ∧ badIndex (exec (.push 8) (ready 0 [])) = some 8 := by decide

theorem witness_PopLoadsFromSp :
    (((ready 0xFD []).setReg 7 0xFF).reg 7).toNat < ((ready 0xFD []).setReg 7 0xFF).cfg.memSize ∧
    (((small (ready 0xFD [])).setReg 7 0x7F).reg 7).toNat < (small (ready 0xFD [])).cfg.memSize ∧
    (small (ready 0xFD [])).cfg.memSize ≤ (((small (ready 0xFD [])).setReg 7 0x80).reg 7).toNat ∧
    (ready 0xFD []).pc.toNat + 2 ≤ 255 ∧ badIndex (exec (.pop 8) (ready 0 [])) = some 8 := by decide

theorem witness_CallPushesTheReturnAddress :
    (((ready 0xFD []).setReg 7 0).reg 7 - 1).toNat < ((ready 0xFD []).setReg 7 0).cfg.memSize ∧
    (small (ready 0xFD [])).cfg.memSize ≤ (((small (ready 0xFD [])).setReg 7 0x81).reg 7 - 1).toNat ∧
    after (exec (.call (regByte 7)) ((ready 0xFD []).setReg 7 0)) (fun t => (t.pc, t.mem.read 0xFF)) =
      some (0xFF, 0xFF) ∧
    (ready 0xFD []).pc.toNat + 2 ≤ 255 ∧ badIndex (exec (.call 8) (ready 0xFD [])) = some 8 := by decide

/-- A CALL at 0xFF, which no fetch puts there. -/
theorem witness_PushCallFrame :
    (((ready 0xFF []).setReg 7 0).reg 7 - 1).toNat < ((ready 0xFF []).setReg 7 0).cfg.memSize ∧
    after (exec (.call (regByte 0)) (ready 0xFF [])) (fun t => t.mem.read 0xF3) = some 0x01 ∧
    badIndex (exec (.call 8) (ready 0xFF [])) = some 8 := by decide

theorem witness_RetPopsThePc :
    (((ready 0 []).setReg 7 0xFF).reg 7).toNat < ((ready 0 []).setReg 7 0xFF).cfg.memSize ∧
    (small (ready 0 [])).cfg.memSize ≤ (((small (ready 0 [])).setReg 7 0x80).reg 7).toNat := by decide

theorem witness_JmpGoesToTheRegister :
    after (exec (.jmp (regByte 7)) (ready 0xFF [])) (·.pc) = some 0xF4 ∧
    badIndex (exec (.jmp 8) (ready 0 [])) = some 8 := by decide

/-- FL = 0xFE has every bit but E. -/
theorem witness_JeqJumpsOnEqual :
    ((ready 0xFD []).setFl 0x01).fl.getLsbD 0 = true ∧ ((ready 0xFD []).setFl 0xFE).fl.getLsbD 0 = false ∧
    (ready 0xFD []).pc.toNat + 2 ≤ 255 ∧
    badIndex (exec (.jeq 8) ((ready 0xFD []).setFl 0x01)) = some 8 := by decide

theorem witness_JneJumpsOnNotEqual :
    ((ready 0xFD []).setFl 0x01).fl.getLsbD 0 = true ∧ ((ready 0xFD []).setFl 0xFE).fl.getLsbD 0 = false ∧
    (ready 0xFD []).pc.toNat + 2 ≤ 255 ∧
    badIndex (exec (.jne 8) ((ready 0xFD []).setFl 0xFE)) = some 8 := by decide

theorem witness_PrnEmitsTheDecimalValue :
    after (exec (.prn (regByte 7)) (ready 0xFD [])) (fun t => (t.out, t.pc)) = some ([.prn 0xF4], 0xFF) ∧
    badIndex (exec (.prn 8) (ready 0xFD [])) = some 8 := by decide

theorem witness_PraEmitsTheCharacter :
    after (exec (.pra (regByte 7)) (ready 0xFD [])) (fun t => (t.out, t.pc)) = some ([.pra 0xF4], 0xFF) ∧
    badIndex (exec (.pra 8) (ready 0xFD [])) = some 8 ∧ 32 ≤ (32 : Byte).toNat ∧ (126 : Byte).toNat ≤ 126 ∧
    asciiChar 32 = some ' ' ∧ asciiChar 126 = some '~' ∧ asciiChar 31 = none ∧ asciiChar 127 = none := by decide

/-- With 128 cells: the nine pops from 0x77 end at 0x7F; from 0x78 the ninth is out of range; from 0xFF the
first is. With 256 cells every SP will do, 0xF8 wrapping to 0x00. -/
theorem witness_IretRestoresFromTheFrame :
    (∀ k : Fin 9, (((ready 0 []).setReg 7 0xF8).reg 7 + BitVec.ofNat 8 k.val).toNat < (ready 0 []).cfg.memSize) ∧
    (∀ k : Fin 9, (((small (ready 0 [])).setReg 7 0x77).reg 7 + BitVec.ofNat 8 k.val).toNat <
      (small (ready 0 [])).cfg.memSize) ∧
    ((small (ready 0 [])).cfg.memSize ≤ (((small (ready 0 [])).setReg 7 0x78).reg 7 + BitVec.ofNat 8 8).toNat ∧
      ∀ j : Fin 9, j < 8 → (((small (ready 0 [])).setReg 7 0x78).reg 7 + BitVec.ofNat 8 j.val).toNat <
        (small (ready 0 [])).cfg.memSize) ∧
    ((small (ready 0 [])).cfg.memSize ≤ (((small (ready 0 [])).setReg 7 0xFF).reg 7 + BitVec.ofNat 8 0).toNat ∧
      ∀ j : Fin 9, ¬ j < 0) := by decide

theorem witness_HltHaltsAndAdvances :
    (ready 0xFE []).run = .running ∧ (ready 0xFE []).pc.toNat + 1 ≤ 255 ∧
    after (exec .hlt (ready 0xFE [])) (fun t => (t.run, t.pc)) = some (.halted, 0xFF) := by decide

/-- Every instruction completes at a state (the premise of the frames and of the rule over all instructions). -/
theorem witness_frames :
    (∀ i ∈ [Instr.ldi 7 0xFF, .add 7 0, .mul 7 0], Completes (exec i (ready 0xFC []))) ∧
    Completes (exec (.cmp 7 0) (ready 0xFC [])) ∧
    (∀ i ∈ [Instr.jmp 7, .jeq 7, .jne 7], Completes (exec i (ready 0xFD []))) ∧
    (∀ i ∈ [Instr.prn 7, .pra 7], Completes (exec i (ready 0xFD []))) ∧
    (∀ i ∈ [Instr.push 7, .call 7], Completes (exec i ((ready 0xFD []).setReg 7 0))) ∧
    Completes (exec (.pop 7) ((ready 0xFD []).setReg 7 0xFF)) ∧
    Completes (exec .ret ((ready 0xFD []).setReg 7 0xFF)) ∧
    Completes (exec .iret ((ready 0xFD []).setReg 7 0xF8)) ∧
    Completes (exec .hlt (ready 0xFE [])) := by
  refine ⟨?_, ⟨_, rfl⟩, ?_, ?_, ?_, ⟨_, rfl⟩, ⟨_, rfl⟩, ⟨_, rfl⟩, ⟨_, rfl⟩⟩ <;>
    simp only [List.forall_mem_cons, List.not_mem_nil, false_imp_iff, implies_true, and_true]
  · exact ⟨⟨_, rfl⟩, ⟨_, rfl⟩, ⟨_, rfl⟩⟩
  · exact ⟨⟨_, rfl⟩, ⟨_, rfl⟩, ⟨_, rfl⟩⟩
  · exact ⟨⟨_, rfl⟩, ⟨_, rfl⟩⟩
  · exact ⟨⟨_, rfl⟩, ⟨_, rfl⟩⟩

/-- ST's frame speaks of the cell at 0xF4 here, and of every other. -/
theorem witness_StFrame :
    Completes (exec (.st 7 0) (ready 0xFC [])) ∧ readReg 7 (ready 0xFC []) = .next 0xF4 ∧
    0xFF ≠ (0xF4 : Byte).toNat := ⟨⟨_, rfl⟩, rfl, by decide⟩

theorem witness_EveryStepOnlyAddsToTheRecord :
    Completes (step ((ready 0 []).setMoves [.timer])) ∧ Completes (step (ready 0 [0x43, 0x00])) :=
  ⟨⟨_, rfl⟩, ⟨_, rfl⟩⟩

theorem witness_FullMemoryCyclesComplete :
    (ready 0xFD [0x99, 0x07, 0xFF]).TickNext ∧ (ready 0xFD [0x99, 0x07, 0xFF]).cfg.memSize = 256 ∧
    outOfBounds (step (ready 0xFD [0x99, 0x07, 0xFF])) = some 256 ∧
    Completes (step (ready 0xFC [0x99, 0x07, 0xFF])) ∧ Completes (step (ready 0xFD [0x43, 0x07])) ∧
    Completes (step (ready 0xFD [0x51, 0x09])) ∧ (ready 0xFD [0x51, 0x09]).FallsThrough (.jeq 9) ∧
    Completes (step (ready 0xFD [0xC0])) ∧
    Completes (step (((ready 0xFF [0x01]).setReg 5 1).setReg 6 1)) ∧
    Completes (step (withCeiling 3 ((ready 0xFF [0x01]).setCycles 3))) :=
  ⟨⟨rfl, rfl⟩, rfl, by decide, ⟨_, rfl⟩, ⟨_, rfl⟩, ⟨_, rfl⟩, .inl ⟨9, rfl, rfl⟩, ⟨_, rfl⟩, ⟨_, rfl⟩, ⟨_, rfl⟩⟩

/-- The bound is reached: with a ceiling of 1, two ticks (the second the watchdog's) and two timer firings among
them; and the run from an IDLE machine, the start being one step more. -/
theorem witness_WatchdogBoundsEveryRun :
    (withCeiling 1 (ready 0 [0x43, 0x00])).cycles ≤ (withCeiling 1 (ready 0 [0x43, 0x00])).cfg.cycleCeiling ∧
    (∃ t, Sys2Proof.core.run 4
      ((withCeiling 1 (ready 0 [0x43, 0x00])).setMoves [.timer, .tick, .timer]) = .next t) ∧
    ∃ t, Sys2Proof.core.run 3 (withCeiling 1 (State.construct defaultConfig (image [(0, 0x43)]))) = .next t :=
  ⟨by decide, ⟨_, rfl⟩, ⟨_, rfl⟩⟩

theorem witness_MemoryPortReadsAndWrites :
    0 < State.reset.cfg.memSize ∧ 255 < State.reset.cfg.memSize ∧ State.reset.cfg.memSize ≤ 256 ∧
    127 < (small State.reset).cfg.memSize ∧ (small State.reset).cfg.memSize ≤ 128 := by decide

/-- R7 itself pushed and popped at the wrap; and a list of the greatest length. -/
theorem witness_PushesThenPopsRestore :
    (((ready 0xFB []).setReg 7 0).reg 7 - 1).toNat < ((ready 0xFB []).setReg 7 0).cfg.memSize ∧
    (ready 0xFB []).pc.toNat + 4 ≤ 255 ∧ (List.replicate 256 (7 : Byte)).length ≤ 256 ∧
    ∀ k : Nat, 1 ≤ k → k ≤ 256 → ((ready 0 []).reg 7 - BitVec.ofNat 8 k).toNat < (ready 0 []).cfg.memSize :=
  ⟨by decide, by decide, Nat.le_of_eq List.length_replicate, fun _ _ _ => BitVec.isLt _⟩

/-- A CALL R7 at the wrap of SP and the last PC, and a subroutine's state that has kept SP and the saved byte and nothing else. -/
theorem witness_RetReturnsAfterTheCall :
    (ready 0xFD []).pc.toNat + 2 ≤ 255 ∧
    exec (.call (regByte 7)) ((ready 0xFD []).setReg 7 0) = .next (stateOf (exec (.call 7) ((ready 0xFD []).setReg 7 0))) ∧
    ∃ u : State, u.cfg = (stateOf (exec (.call 7) ((ready 0xFD []).setReg 7 0))).cfg ∧
      u.reg 7 = (stateOf (exec (.call 7) ((ready 0xFD []).setReg 7 0))).reg 7 ∧
      u.mem.read 0xFF = (stateOf (exec (.call 7) ((ready 0xFD []).setReg 7 0))).mem.read 0xFF ∧
      u.reg 0 = 0x55 ∧ u.fl = 4 :=
  ⟨by decide, rfl, ((stateOf (exec (.call 7) ((ready 0xFD []).setReg 7 0))).setReg 0 0x55).setFl 4, by decide⟩

theorem witness_LowestPendingSourceIsSelected :
    lowestSource 0x80 = some 7 ∧ lowestSource 0x81 = some 0 ∧ lowestSource 0 = none := by decide

/-- Entry at SP = 0, for the last source. With 128 cells: the first push out of range at SP = 0xF4, the last
(the ninth, at 0xFF) at SP = 8, and none at SP = 9, where the vector's cell is. -/
theorem witness_InterruptEntrySavesTheContext :
    (∀ k : Nat, 1 ≤ k → k ≤ 9 → (((ready 0 []).setReg 7 0).reg 7 - BitVec.ofNat 8 k).toNat <
      (ready 0 []).cfg.memSize) ∧
    0xF8 + (7 : Fin 8).val < (ready 0 []).cfg.memSize ∧
    (small (ready 0 [])).cfg.memSize ≤ ((small (ready 0 [])).reg 7 - BitVec.ofNat 8 1).toNat ∧
    outOfBounds (interruptEntry 0 (small (ready 0 []))) = some 0xF3 ∧
    (small (ready 0 [])).cfg.memSize ≤ (((small (ready 0 [])).setReg 7 8).reg 7 - BitVec.ofNat 8 9).toNat ∧
    (∀ j : Nat, 1 ≤ j → j < 9 → (((small (ready 0 [])).setReg 7 8).reg 7 - BitVec.ofNat 8 j).toNat <
      (small (ready 0 [])).cfg.memSize) ∧
    outOfBounds (interruptEntry 0 ((small (ready 0 [])).setReg 7 8)) = some 0xFF ∧
    (∀ k : Nat, 1 ≤ k → k ≤ 9 → (((small (ready 0 [])).setReg 7 9).reg 7 - BitVec.ofNat 8 k).toNat <
      (small (ready 0 [])).cfg.memSize) ∧
    (small (ready 0 [])).cfg.memSize ≤ 0xF8 + (0 : Fin 8).val ∧
    outOfBounds (interruptEntry 0 ((small (ready 0 [])).setReg 7 9)) = some 0xF8 := by
  refine ⟨fun _ _ _ => BitVec.isLt _, by decide, by decide, by decide, by decide, fun j h1 h2 => ?_, by decide,
    fun k h1 h2 => ?_, by decide, by decide⟩
  · have h : ∀ j : Fin 9, 1 ≤ j.val → (((small (ready 0 [])).setReg 7 8).reg 7 - BitVec.ofNat 8 j.val).toNat <
        (small (ready 0 [])).cfg.memSize := by decide
    exact h ⟨j, h2⟩ h1
  · have h : ∀ k : Fin 10, 1 ≤ k.val → (((small (ready 0 [])).setReg 7 9).reg 7 - BitVec.ofNat 8 k.val).toNat <
        (small (ready 0 [])).cfg.memSize := by decide
    exact h ⟨k, by omega⟩ h1

/-- Entry across the wrap of SP, and a handler's state that has kept SP and the frame and nothing else. -/
theorem witness_IretUndoesInterruptEntry :
    interruptEntry 3 ((ready 6 []).setReg 7 4) = .next (stateOf (interruptEntry 3 ((ready 6 []).setReg 7 4))) ∧
    ∃ u : State, u.cfg = (stateOf (interruptEntry 3 ((ready 6 []).setReg 7 4))).cfg ∧
      u.reg 7 = (stateOf (interruptEntry 3 ((ready 6 []).setReg 7 4))).reg 7 ∧
      (∀ k : Fin 9, u.mem.read (u.reg 7 + BitVec.ofNat 8 k.val).toNat =
        (stateOf (interruptEntry 3 ((ready 6 []).setReg 7 4))).mem.read (u.reg 7 + BitVec.ofNat 8 k.val).toNat) ∧
      u.reg 0 = 0x55 ∧ u.fl = 4 :=
  ⟨rfl, ((stateOf (interruptEntry 3 ((ready 6 []).setReg 7 4))).setReg 0 0x55).setFl 4, by decide⟩

/-- A cycle that runs an instruction: the last one below the ceiling, requests there but masked. -/
theorem witness_StepRunsTheDecodedInstruction :
    ((withCeiling 3 ((ready 0xFD [0x01]).setReg 6 0xFF)).setCycles 2).TickNext ∧
    ((withCeiling 3 ((ready 0xFD [0x01]).setReg 6 0xFF)).setCycles 2).cycles < 3 ∧
    ((withCeiling 3 ((ready 0xFD [0x01]).setReg 6 0xFF)).setCycles 2).im &&&
      ((withCeiling 3 ((ready 0xFD [0x01]).setReg 6 0xFF)).setCycles 2).is = 0 ∧
    ((withCeiling 3 ((ready 0xFD [0x01]).setReg 6 0xFF)).setCycles 2).InstrAt .hlt ∧
    (State.reset.setMoves [.tick]).run ≠ .running ∧ (State.reset.setMoves [.tick]).moves = [.tick] :=
  ⟨⟨rfl, rfl⟩, by decide, by decide, ⟨by decide, rfl⟩, by decide, rfl⟩

theorem witness_StepTakesThePendingInterrupt :
    (((ready 0 []).setReg 5 0x80).setReg 6 0xFF).TickNext ∧
    (((ready 0 []).setReg 5 0x80).setReg 6 0xFF).cycles < (ready 0 []).cfg.cycleCeiling ∧
    ((((ready 0 []).setReg 5 0x80).setReg 6 0xFF).im &&& (((ready 0 []).setReg 5 0x80).setReg 6 0xFF).is).getLsbD
      7 = true ∧
    ∀ m : Fin 8, m < 7 → ((((ready 0 []).setReg 5 0x80).setReg 6 0xFF).im &&&
      (((ready 0 []).setReg 5 0x80).setReg 6 0xFF).is).getLsbD m.val = false :=
  ⟨⟨rfl, rfl⟩, by decide, by decide, by decide⟩

/-- At the ceiling (the watchdog fires), and one below it (the last working cycle). -/
theorem witness_WatchdogHaltsSilently :
    ((withCeiling 3 (ready 0 [0x43, 0x00])).setCycles 3).TickNext ∧
    3 < ((withCeiling 3 (ready 0 [0x43, 0x00])).setCycles 3).cycles + 1 ∧
    ((withCeiling 3 (ready 0 [0x43, 0x00])).setCycles 2).TickNext ∧
    ((withCeiling 3 (ready 0 [0x43, 0x00])).setCycles 2).cycles + 1 ≤ 3 ∧
    Completes (step ((withCeiling 3 (ready 0 [0x43, 0x00])).setCycles 2)) :=
  ⟨⟨rfl, rfl⟩, by decide, ⟨rfl, rfl⟩, by decide, _, rfl⟩

/-- The last PC at which three bytes can be fetched, and the first at which they cannot. -/
theorem witness_UnknownOpcodeReportsAndHalts :
    (ready 0xFD [0xC0]).TickNext ∧ (ready 0xFD [0xC0]).cycles < (ready 0xFD [0xC0]).cfg.cycleCeiling ∧
    (ready 0xFD [0xC0]).im &&& (ready 0xFD [0xC0]).is = 0 ∧
    (ready 0xFD [0xC0]).pc.toNat + 2 < (ready 0xFD [0xC0]).cfg.memSize ∧
    (∀ m : Mnemonic, (ready 0xFD [0xC0]).cfg.opc.byte m ≠ (ready 0xFD [0xC0]).mem.read 0xFD) ∧
    (ready 0xFE [0xC0]).TickNext ∧ (ready 0xFE [0xC0]).cfg.memSize ≤ (ready 0xFE [0xC0]).pc.toNat + 2 ∧
    (∀ m : Mnemonic, (ready 0xFE [0xC0]).cfg.opc.byte m ≠ (ready 0xFE [0xC0]).mem.read 0xFE) := by
  refine ⟨⟨rfl, rfl⟩, by decide, by decide, by decide, ?_, ⟨rfl, rfl⟩, by decide, ?_⟩ <;>
    intro m <;> cases m <;> decide

/-- The third byte out of range at 0xFE, the second at 0xFF, the first with 128 cells at 0x80. -/
theorem witness_FetchReadsThreeBytesInOrder :
    (ready 0xFD []).pc.toNat + 2 < (ready 0xFD []).cfg.memSize ∧ (ready 0xFE []).TickNext ∧
    (ready 0xFE []).cfg.memSize ≤ (ready 0xFE []).pc.toNat + 2 ∧
    (∀ j : Fin 3, j < 2 → (ready 0xFE []).pc.toNat + j.val < (ready 0xFE []).cfg.memSize) ∧
    (ready 0xFF []).cfg.memSize ≤ (ready 0xFF []).pc.toNat + 1 ∧
    (∀ j : Fin 3, j < 1 → (ready 0xFF []).pc.toNat + j.val < (ready 0xFF []).cfg.memSize) ∧
    (small (ready 0x80 [])).cfg.memSize ≤ (small (ready 0x80 [])).pc.toNat + 0 ∧
    outOfBounds (step (small (ready 0x80 []))) = some 128 :=
  ⟨by decide, ⟨rfl, rfl⟩, by decide, by decide, by decide, by decide, by decide, by decide⟩

theorem witness_AdvancePastTheTopFaults :
    0xFF < (ready 0xFF []).pc.toNat + 1 + 0 ∧ 0xFF < (ready 0xFD []).pc.toNat + 3 ∧
    ((ready 0xFD []).reg 7).toNat < (ready 0xFD []).cfg.memSize ∧
    (ready 0xFD [0x99, 0x00, 0x05]).cfg.memSize ≤ 256 ∧
    (ready 0xFD [0x99, 0x00, 0x05]).InstrAt (.ldi 0 5) ∧
    0xFF < (ready 0xFD [0x99, 0x00, 0x05]).pc.toNat + 1 + (Instr.ldi 0 5).operandCount :=
  ⟨by decide, by decide, by decide, by decide, ⟨by decide, rfl⟩, by decide⟩

theorem witness_TimerSetsStatusBitZero :
    ((ready 0 []).setMoves [.timer, .tick]).run = .running ∧ (State.reset.setMoves [.timer]).run ≠ .running := by
  decide

theorem witness_PokeWritesOneCell :
    (State.reset.setMoves [.poke 255 1]).run = .idle ∧ 255 < (State.reset.setMoves [.poke 255 1]).cfg.memSize ∧
    (State.reset.setMoves [.poke 256 1]).cfg.memSize ≤ 256 ∧
    ((ready 0 []).setMoves [.poke 255 1]).run ≠ .idle := by decide

theorem witness_RegistrationKeepsTheLastCallback :
    ((State.reset.setOnHalt (some 1)).setMoves [.registerHalt 2]).run = .idle ∧
    ((ready 0 []).setMoves [.registerHalt 2]).run ≠ .idle := by decide

theorem witness_StartRunsTheClock :
    (State.reset.setMoves [.start]).run = .idle ∧ (State.reset.setMoves [.start]).cfg.Legal ∧
    ((ready 0 []).setMoves [.start]).run ≠ .idle := by decide

/-- `MEM_SIZE` = 257 is refused, and 256 and 1 are not. -/
theorem witness_IllegalConfigurationIsRefusedAtStart :
    (State.construct { defaultConfig with memSize := 257 } []).run = .idle ∧
    ¬ (Config.Legal { defaultConfig with memSize := 257 }) ∧
    Config.Legal { defaultConfig with memSize := 1, opc := otherOpc } ∧ defaultConfig.Legal := by decide

theorem witness_EmptyScheduleStartsOrTicks :
    State.reset.moves = [] ∧ State.reset.run = .idle ∧ ((ready 0 [0x01]).setMoves []).run ≠ .idle ∧
    after (step ((ready 0 [0x01]).setMoves [])) (·.run) = some .halted := by decide

theorem witness_StoppedMachineHasNoStep :
    ((ready 0 []).setRun .halted).run = .halted ∧ ((ready 0 []).setRun .faulted).run = .faulted := by decide

theorem witness_HaltIsImmediateAndIdempotent :
    ((ready 0 []).setOnHalt (some 5)).run = .running ∧ State.reset.run ≠ .running ∧
    (halt ((ready 0 []).setOnHalt (some 5))).invoked = [5] := by decide

end Sys2Proof.Tests
end

/-! ### What a step does

What a step can do to the machine, said once: the effect that every CPU operation composes into
(`CpuEffect`), and the five kinds of completed step (`StepEffect`). The scope family's statements follow from it. -/

namespace Sys2Proof.Machine

/-! ### The effect of the CPU within a cycle -/

/-- What a piece of CPU work may do to the machine (rules R12, R13, R53, R204): the surroundings stay, the output
only grows, the memory stays canonical and in bounds, and the clock either goes on with no notification or is
stopped with the registered callback invoked. -/
structure CpuEffect (s t : State) : Prop where
  surroundings : SameSurroundings s t
  output : s.out <+: t.out
  memory : s.MemoryOk → t.MemoryOk
  clock : (t.run = s.run ∧ t.invoked = s.invoked) ∨
    (s.run = .running ∧ t.run = .halted ∧ t.invoked = s.invoked ++ s.onHalt.toList)

/-- Effects compose: a second halt is none, because the first one has left RUNNING. -/
theorem CpuEffect.trans {s t u : State} (h : CpuEffect s t) (k : CpuEffect t u) : CpuEffect s u := by
  obtain ⟨⟨hcfg, hcyc, hcb, hmov⟩, hout, hmem, hclk⟩ := h
  obtain ⟨⟨kcfg, kcyc, kcb, kmov⟩, kout, kmem, kclk⟩ := k
  refine ⟨⟨kcfg.trans hcfg, kcyc.trans hcyc, kcb.trans hcb, kmov.trans hmov⟩, hout.trans kout, kmem ∘ hmem, ?_⟩
  rcases kclk with ⟨hr, hi⟩ | ⟨ht, hr, hi⟩
  · rw [hr, hi]
    exact hclk
  · rcases hclk with ⟨hr', hi'⟩ | ⟨-, hr', -⟩
    · exact .inr ⟨hr' ▸ ht, hr, by rw [hi, hi', hcb]⟩
    · rw [hr'] at ht
      cases ht

/-- Work that leaves the run state, the notifications and the output alone. -/
theorem CpuEffect.of_sameRun {s t : State} (h : SameRun s t) (hout : t.out = s.out)
    (hmem : s.MemoryOk → t.MemoryOk) : CpuEffect s t :=
  ⟨h.1, hout ▸ List.prefix_rfl, hmem, .inl h.2⟩

theorem CpuEffect.setReg (s : State) (i : Fin 8) (v : Byte) : CpuEffect s (s.setReg i v) :=
  .of_sameRun ⟨⟨rfl, rfl, rfl, rfl⟩, rfl, rfl⟩ rfl id

theorem CpuEffect.setPc (s : State) (v : Byte) : CpuEffect s (s.setPc v) :=
  .of_sameRun ⟨⟨rfl, rfl, rfl, rfl⟩, rfl, rfl⟩ rfl id

theorem CpuEffect.setFl (s : State) (v : Byte) : CpuEffect s (s.setFl v) :=
  .of_sameRun ⟨⟨rfl, rfl, rfl, rfl⟩, rfl, rfl⟩ rfl id

theorem CpuEffect.emit (s : State) (e : Event) : CpuEffect s (s.emit e) :=
  ⟨⟨rfl, rfl, rfl, rfl⟩, List.prefix_append _ _, id, .inl ⟨rfl, rfl⟩⟩

theorem CpuEffect.halt (s : State) : CpuEffect s (halt s) := by
  obtain ⟨hsur, -, -, -, hmem, hout⟩ := halt_frame s
  refine ⟨hsur, hout ▸ List.prefix_rfl, fun h => h.congr hmem hsur.1, ?_⟩
  by_cases hr : s.run = .running
  · rw [halt_running hr]
    exact .inr ⟨hr, rfl, rfl⟩
  · rw [halt_stopped hr]
    exact .inl ⟨rfl, rfl⟩

/-! ### The effect of the shared operations -/

theorem memWrite_effect {addr : Nat} {v : Byte} {s t : State} (h : memWrite addr v s = .next t) :
    CpuEffect s t := by
  obtain ⟨ha, rfl⟩ := memWrite_eq_next.1 h
  exact .of_sameRun ⟨⟨rfl, rfl, rfl, rfl⟩, rfl, rfl⟩ rfl fun hs => hs.write ha v

theorem writeReg_effect {a v : Byte} {s t : State} (h : writeReg a v s = .next t) : CpuEffect s t := by
  obtain ⟨i, -, rfl⟩ := writeReg_eq_next.1 h
  exact .setReg s i v

theorem advance_effect {n : Nat} {s t : State} (h : advance n s = .next t) : CpuEffect s t := by
  obtain ⟨-, rfl⟩ := advance_eq_next.1 h
  exact .setPc s _

theorem jumpTo_effect {a : Byte} {s t : State} (h : jumpTo a s = .next t) : CpuEffect s t := by
  obtain ⟨i, -, rfl⟩ := jumpTo_eq_next.1 h
  exact .setPc s _

theorem push_effect {v : Byte} {s t : State} (h : push v s = .next t) : CpuEffect s t :=
  (CpuEffect.setReg s 7 _).trans (memWrite_effect h)

theorem pop_effect {v : Byte} {s t : State} (h : pop s = .next (v, t)) : CpuEffect s t := by
  obtain ⟨-, -, rfl⟩ := pop_eq_next.1 h
  exact .setReg s 7 _

theorem interruptEntry_effect {n : Fin 8} {s t : State} (h : interruptEntry n s = .next t) : CpuEffect s t := by
  obtain ⟨hrun, -, hout, -, -, -, -, -, hmem⟩ := interruptEntry_frame h
  exact .of_sameRun hrun hout hmem

theorem interruptReturn_effect {s t : State} (h : interruptReturn s = .next t) : CpuEffect s t := by
  obtain ⟨hrun, hout, hmem, -⟩ := interruptReturn_frame h
  have hcfg : t.cfg = s.cfg := hrun.1.1
  exact .of_sameRun hrun hout fun hs => hs.congr hmem hcfg

/-- The common end of the handlers that write a register and advance. -/
theorem writeReg_advance_effect {a v : Byte} {n : Nat} {s t : State}
    (h : andThen (writeReg a v s) (advance n) = .next t) : CpuEffect s t := by
  obtain ⟨u, hu, h⟩ := andThen_eq_next.1 h
  exact (writeReg_effect hu).trans (advance_effect h)

/-- The common end of the handlers that write a cell and advance. -/
theorem memWrite_advance_effect {addr : Nat} {v : Byte} {n : Nat} {s t : State}
    (h : andThen (memWrite addr v s) (advance n) = .next t) : CpuEffect s t := by
  obtain ⟨u, hu, h⟩ := andThen_eq_next.1 h
  exact (memWrite_effect hu).trans (advance_effect h)

/-! ### The effect of an instruction and of a cycle -/

/-- Every instruction that completes has a CPU effect: each handler is a chain of the operations above. -/
theorem exec_effect {i : Instr} {s t : State} (h : exec i s = .next t) : CpuEffect s t := by
  cases i with
  | ldi a imm => exact writeReg_advance_effect h
  | st a b =>
    obtain ⟨addr, -, h⟩ := andThen_eq_next.1 h
    obtain ⟨v, -, h⟩ := andThen_eq_next.1 h
    exact memWrite_advance_effect h
  | add a b | mul a b =>
    obtain ⟨v, -, h⟩ := andThen_eq_next.1 h
    exact writeReg_advance_effect h
  | cmp a b =>
    obtain ⟨v, -, h⟩ := andThen_eq_next.1 h
    exact (CpuEffect.setFl s v).trans (advance_effect h)
  | push a =>
    obtain ⟨v, -, h⟩ := andThen_eq_next.1 h
    exact (CpuEffect.setReg s 7 _).trans (memWrite_advance_effect h)
  | pop a =>
    obtain ⟨v, -, h⟩ := andThen_eq_next.1 h
    obtain ⟨u, hu, h⟩ := andThen_eq_next.1 h
    exact (writeReg_effect hu).trans ((CpuEffect.setReg u 7 _).trans (advance_effect h))
  | call a =>
    obtain ⟨u, hu, h⟩ := andThen_eq_next.1 h
    exact (push_effect hu).trans (jumpTo_effect h)
  | ret =>
    obtain ⟨⟨v, u⟩, hu, h⟩ := andThen_eq_next.1 h
    cases h
    exact (pop_effect hu).trans (CpuEffect.setPc u v)
  | jmp a => exact jumpTo_effect h
  | jeq a | jne a =>
    rcases ite_eq_iff.1 h with ⟨-, h⟩ | ⟨-, h⟩
    · exact jumpTo_effect h
    · exact advance_effect h
  | prn a | pra a =>
    obtain ⟨v, -, h⟩ := andThen_eq_next.1 h
    exact (CpuEffect.emit s _).trans (advance_effect h)
  | iret => exact interruptReturn_effect h
  | hlt => exact (CpuEffect.halt s).trans (advance_effect h)

theorem fetchAndRun_effect {s t : State} (h : fetchAndRun exec s = .next t) : CpuEffect s t := by
  obtain ⟨w, -, h⟩ := andThen_eq_next.1 h
  split at h
  · exact exec_effect h
  · cases h
    exact (CpuEffect.emit s _).trans (CpuEffect.halt _)

/-- A completed cycle has a CPU effect on the counted machine, and above the ceiling a RUNNING machine is halted
(rule R101). -/
theorem cycleWith_effect {s t : State} (h : cycleWith exec s = .next t) :
    CpuEffect (counted s) t ∧
      (s.run = .running → s.cfg.cycleCeiling < s.cycles + 1 → t.run = .halted) := by
  rcases cycleWith_cases exec s with ⟨-, e⟩ | ⟨hc, n, -, e⟩ | ⟨hc, -, e⟩ <;> rw [e] at h
  · cases h
    exact ⟨.halt _, fun hr _ => by rw [halt_running (s := counted s) hr]; rfl⟩
  · exact ⟨interruptEntry_effect h, fun _ hlt => by omega⟩
  · exact ⟨fetchAndRun_effect h, fun _ hlt => by omega⟩

/-! ### The effect of a step -/

/-- The five ways a step completes, one for each move (rules R15, R101, R196, R232-R234). -/
inductive StepEffect (s : State) : State → Prop where
  | tick {t : State} (hr : s.run = .running) (he : CpuEffect s.ticked t)
      (hw : s.cfg.cycleCeiling < s.cycles + 1 → t.run = .halted) : StepEffect s t
  | timer (hr : s.run = .running) : StepEffect s (timerFire (s.setMoves s.moves.tail))
  | poke (addr : Nat) (v : Byte) (hi : s.run = .idle) (ha : addr < s.cfg.memSize) :
      StepEffect s ((s.setMoves s.moves.tail).setMem (s.mem.write addr v))
  | registerHalt (k : Callback) (hi : s.run = .idle) :
      StepEffect s ((s.setMoves s.moves.tail).setOnHalt (some k))
  | start (hi : s.run = .idle) (hl : s.cfg.Legal) :
      StepEffect s ((s.setMoves s.moves.tail).setRun .running)

/-- A move completes only in its own run state. -/
theorem onlyIn_eq_next {r : RunState} {m : Move} {x : Res State} {s t : State} :
    onlyIn r m x s = .next t ↔ s.run = r ∧ x = .next t := by
  unfold onlyIn
  split <;> simp [*]

theorem startClock_eq_next {s t : State} :
    startClock s = .next t ↔ s.cfg.Legal ∧ t = s.setRun .running := by
  unfold startClock
  split
  · next hl => exact ⟨fun h => ⟨hl, by cases h; rfl⟩, fun ⟨_, ht⟩ => ht ▸ rfl⟩
  · next hl => exact ⟨nofun, fun ⟨hl', _⟩ => absurd hl' hl⟩

/-- Every step that completes is one of the five. -/
theorem step_effect {s t : State} (h : step s = .next t) : StepEffect s t := by
  rw [step_eq_perform] at h
  generalize s.moves.head?.getD (defaultMove s.run) = m at h
  cases m with
  | tick =>
    obtain ⟨hr, h⟩ := onlyIn_eq_next.1 h
    obtain ⟨he, hw⟩ := cycleWith_effect h
    exact .tick hr he (hw hr)
  | timer =>
    obtain ⟨hr, h⟩ := onlyIn_eq_next.1 h
    cases h
    exact .timer hr
  | poke addr v =>
    obtain ⟨hi, h⟩ := onlyIn_eq_next.1 h
    obtain ⟨ha, rfl⟩ := memWrite_eq_next.1 h
    exact .poke addr v hi ha
  | registerHalt k =>
    obtain ⟨hi, h⟩ := onlyIn_eq_next.1 h
    cases h
    exact .registerHalt k hi
  | start =>
    obtain ⟨hi, h⟩ := onlyIn_eq_next.1 h
    obtain ⟨hl, rfl⟩ := startClock_eq_next.1 h
    exact .start hi hl

/-! ### The invariant -/

/-- From a RUNNING machine with no notification made, the CPU leaves one of the same kind, or a HALTED one whose
registered callback is invoked once. -/
theorem CpuEffect.clock_of_running {s t : State} (h : CpuEffect s t) (hr : s.run = .running)
    (hi : s.invoked = []) :
    (t.run = .running ∧ t.invoked = []) ∨ (t.run = .halted ∧ t.invoked = t.onHalt.toList) := by
  obtain ⟨⟨-, -, hcb, -⟩, -, -, hclk⟩ := h
  rcases hclk with ⟨ht, hi'⟩ | ⟨-, ht, hi'⟩
  · exact .inl ⟨ht.trans hr, hi'.trans hi⟩
  · exact .inr ⟨ht, by rw [hi', hi, hcb, List.nil_append]⟩

/-- The invariant is kept by a cycle of the CPU: the count that passes the ceiling leaves a HALTED machine. -/
theorem State.Inv.tick {s t : State} (hs : s.Inv) (hr : s.run = .running) (he : CpuEffect s.ticked t)
    (hw : s.cfg.cycleCeiling < s.cycles + 1 → t.run = .halted) : t.Inv := by
  obtain ⟨hmem, hcb, ⟨-, hcyc⟩, ⟨-, hlegal⟩, -⟩ := hs
  obtain ⟨tcfg, tcyc, -, -⟩ := he.surroundings
  have hceil : s.cycles ≤ s.cfg.cycleCeiling := hcyc hr
  have hnone : s.invoked = [] := by simpa [State.CallbackOk, hr] using hcb
  replace tcfg : t.cfg = s.cfg := tcfg
  replace tcyc : t.cycles = s.cycles + 1 := tcyc
  have tmem : t.MemoryOk := he.memory (hmem.congr rfl rfl)
  rcases he.clock_of_running hr hnone with ⟨ht, hi⟩ | ⟨ht, hi⟩
  · have hle : s.cycles + 1 ≤ s.cfg.cycleCeiling := Nat.le_of_not_lt fun hlt => nomatch ht.symm.trans (hw hlt)
    refine ⟨tmem, ?_, ?_, ?_, ?_⟩
    · simp [State.CallbackOk, ht, hi]
    · rw [State.WatchdogOk, tcfg, tcyc]
      exact ⟨by omega, fun _ => hle⟩
    · simp only [State.LaunchOk, ht, tcfg]
      exact ⟨nofun, fun _ => hlegal hr⟩
    · simp [ht]
  · refine ⟨tmem, ?_, ?_, ?_, ?_⟩
    · simp [State.CallbackOk, ht, hi]
    · rw [State.WatchdogOk, tcfg, tcyc, ht]
      exact ⟨by omega, nofun⟩
    · simp [State.LaunchOk, ht]
    · simp [ht]

/-- The invariant is kept by each of the five kinds of step. -/
theorem State.Inv.step {s t : State} (hs : s.Inv) (h : StepEffect s t) : t.Inv := by
  cases h with
  | tick hr he hw => exact hs.tick hr he hw
  | timer hr =>
    obtain ⟨hmem, hcb, hwd, ⟨-, hrun⟩, hf⟩ := hs
    refine ⟨hmem, hcb, hwd, ⟨fun hi => ?_, hrun⟩, hf⟩
    exact absurd (hr.symm.trans hi) nofun
  | poke addr v hi ha =>
    obtain ⟨hmem, hrest⟩ := hs
    exact ⟨hmem.write ha v, hrest⟩
  | registerHalt k hi =>
    obtain ⟨hmem, hcb, hrest⟩ := hs
    refine ⟨hmem, ?_, hrest⟩
    simpa [State.CallbackOk, hi] using hcb
  | start hi hl =>
    obtain ⟨hmem, hcb, ⟨hcyc, -⟩, ⟨hidle, -⟩, -⟩ := hs
    obtain ⟨-, -, -, hzero, -⟩ := hidle hi
    refine ⟨hmem, ?_, ⟨hcyc, fun _ => ?_⟩, ⟨nofun, fun _ => hl⟩, nofun⟩
    · simpa [State.CallbackOk, hi] using hcb
    · change s.cycles ≤ _
      omega

/-- The invariant holds right after `construct`, whatever the schedule (rule R230). -/
theorem State.Inv.launch {cfg : Config} {mem : Memory} (moves : List Move)
    (h : (State.construct cfg mem).MemoryOk) : ((State.construct cfg mem).setMoves moves).Inv :=
  ⟨h, rfl, ⟨Nat.zero_le _, fun _ => Nat.zero_le _⟩, ⟨fun _ => ⟨rfl, rfl, rfl, rfl, rfl⟩, nofun⟩, nofun⟩

/-- Settles O3, from the five kinds of step. -/
theorem everyStepKeepsInv : Obligations.EveryStepKeepsInv :=
  fun _ _ hs h => hs.step (step_effect h)

/-- Settles O4, by induction on the run: the launch and O3. -/
theorem reachableStatesMeetInv : Obligations.ReachableStatesMeetInv := by
  intro s h
  induction h with
  | launch cfg mem moves hm => exact .launch moves hm
  | step _ hs ih => exact everyStepKeepsInv _ _ ih hs

/-! ### The record and the cycle -/

/-- The CPU never takes a notification back. -/
theorem CpuEffect.invoked_prefix {s t : State} (h : CpuEffect s t) : s.invoked <+: t.invoked := by
  rcases h.clock with ⟨-, hi⟩ | ⟨-, -, hi⟩ <;> rw [hi]
  exact List.prefix_append _ _

/-- Settles O36, from the five kinds of step: only a tick writes to the record. -/
theorem everyStepOnlyAddsToTheRecord : Obligations.EveryStepOnlyAddsToTheRecord := by
  intro s t h
  cases step_effect h with
  | tick hr he hw =>
    obtain ⟨hcfg, hcyc, -, -⟩ := he.surroundings
    exact ⟨hcfg, he.output, he.invoked_prefix, .inr hcyc⟩
  | timer | poke | registerHalt | start => exact ⟨rfl, List.prefix_rfl, List.prefix_rfl, .inl rfl⟩

/-- A cycle below the ceiling with nothing pending fetches and runs (rules R101, R102). -/
theorem cycleWith_run (handler : Instr → State → Res State) {s : State}
    (hc : s.cycles < s.cfg.cycleCeiling) (hp : s.pending = 0) :
    cycleWith handler s = fetchAndRun handler (counted s) := by
  rcases cycleWith_cases handler s with ⟨hlt, -⟩ | ⟨-, n, hn, -⟩ | ⟨-, -, e⟩
  · omega
  · rw [lowestSource_eq_none.2 hp] at hn
    cases hn
  · exact e

/-- Settles O47: a tick is a cycle, and a cycle that nothing takes is the handler of the fetched instruction. -/
theorem stepRunsTheDecodedInstruction : Obligations.StepRunsTheDecodedInstruction := by
  constructor
  · intro s i htick hc hp hi
    calc step s = cycleWith exec (s.setMoves s.moves.tail) := step_tick htick
      _ = fetchAndRun exec s.ticked := cycleWith_run exec (s := s.setMoves s.moves.tail) hc hp
      _ = exec i s.ticked := fetchAndRun_instrAt exec (s := s.ticked) hi
  · intro s rest hr hm
    rw [step_eq_perform, hm]
    exact if_neg hr

end Sys2Proof.Machine

/-! ### The initial state and the views of registers

The state right after `construct`, the invariant there, and the three registers that have a second name. -/

namespace Sys2Proof.Machine

/-- The default configuration is one that the hardware admits (rules R6, R51, R95). -/
theorem defaultConfig_legal : defaultConfig.Legal :=
  ⟨by decide, by decide, by decide, Opc.default_legal⟩

/-- Settles O1: the registers by `State.construct_reg`, the other fields by the definition of `construct`. -/
theorem constructLeavesTheInitialState : Obligations.ConstructLeavesTheInitialState := by
  constructor
  · intro cfg mem
    have hreg : ∀ i : Fin 8, (State.construct cfg mem).reg i = if i = 7 then spInit else 0 :=
      State.construct_reg cfg mem
    exact ⟨hreg, hreg 5, hreg 6, hreg 7, rfl, rfl, rfl, rfl, rfl, rfl, rfl⟩
  · exact ⟨defaultConfig, [], defaultConfig_legal, rfl, rfl⟩

/-- The memory of `State.reset` lists no cell. -/
theorem State.memoryOk_reset : State.reset.MemoryOk :=
  ⟨Memory.wf_reset, fun _ hc => absurd hc List.not_mem_nil⟩

/-- Settles O2: `State.Inv.launch`, of which `State.reset` is the case of no listed cell and no listed move. -/
theorem invariantHoldsAtLaunch : Obligations.InvariantHoldsAtLaunch :=
  ⟨fun _ _ moves hmem => .launch moves hmem, .launch [] State.memoryOk_reset⟩

/-- Settles O39: IM, IS and SP are reads of registers 5, 6 and 7, so the read-over-write law of registers answers. -/
theorem aliasesAreViews : Obligations.AliasesAreViews :=
  fun s i v => ⟨s.setReg_reg i 5 v, s.setReg_reg i 6 v, s.setReg_reg i 7 v, s.im_eq, s.is_eq, s.sp_eq⟩

/-! ### The watchdog -/

/-- The cycle whose count passes the ceiling is `Halt()` (rule R101). -/
theorem cycleWith_above_ceiling (handler : Instr → State → Res State) {s : State}
    (hc : s.cfg.cycleCeiling < s.cycles + 1) : cycleWith handler s = .next (halt (counted s)) :=
  if_pos hc

/-- Up to the ceiling a cycle goes on to the interrupt check (rules R101, R102). -/
theorem cycleWith_within_ceiling (handler : Instr → State → Res State) {s : State}
    (hc : s.cycles + 1 ≤ s.cfg.cycleCeiling) : cycleWith handler s = interruptOrRun handler (counted s) :=
  if_neg (Nat.not_lt.2 hc)

/-- Settles O49: the count is among the surroundings that no cycle's effect changes, and the two ranges of the
count are the two branches of a cycle. -/
theorem watchdogHaltsSilently : Obligations.WatchdogHaltsSilently := by
  refine ⟨fun s t htick h => ?_, fun s htick hc => ?_, fun s htick hc => ?_⟩
  · rw [step_tick htick] at h
    obtain ⟨heffect, -⟩ := cycleWith_effect h
    obtain ⟨-, hcycles, -, -⟩ := heffect.surroundings
    exact hcycles
  · calc step s = cycleWith exec (s.setMoves s.moves.tail) := step_tick htick
      _ = .next (halt s.ticked) := cycleWith_above_ceiling exec (s := s.setMoves s.moves.tail) hc
      _ = .next ((s.ticked.setRun .halted).setInvoked (s.invoked ++ s.onHalt.toList)) :=
        congrArg _ (halt_running (s := s.ticked) htick.1)
  · calc step s = cycleWith exec (s.setMoves s.moves.tail) := step_tick htick
      _ = interruptOrRun exec s.ticked := cycleWith_within_ceiling exec (s := s.setMoves s.moves.tail) hc

end Sys2Proof.Machine

/-! ### Which instruction writes what

Every instruction writes registers and PC; beyond these, `ExecWrites` says which part of the state which
instruction may write. -/

namespace Sys2Proof.Machine

/-- Two states that differ at most in the general registers and PC. -/
structure SameButRegisters (s t : State) : Prop where
  run : SameRun s t
  fl : t.fl = s.fl
  out : t.out = s.out
  mem : t.mem = s.mem

theorem SameButRegisters.trans {s t u : State} (h : SameButRegisters s t) (k : SameButRegisters t u) :
    SameButRegisters s u := by
  obtain ⟨⟨⟨hcfg, hcyc, hcb, hmov⟩, hrun, hinv⟩, hfl, hout, hmem⟩ := h
  obtain ⟨⟨⟨kcfg, kcyc, kcb, kmov⟩, krun, kinv⟩, kfl, kout, kmem⟩ := k
  exact ⟨⟨⟨kcfg.trans hcfg, kcyc.trans hcyc, kcb.trans hcb, kmov.trans hmov⟩, krun.trans hrun, kinv.trans hinv⟩,
    kfl.trans hfl, kout.trans hout, kmem.trans hmem⟩

theorem SameButRegisters.setReg (s : State) (i : Fin 8) (v : Byte) : SameButRegisters s (s.setReg i v) :=
  ⟨⟨⟨rfl, rfl, rfl, rfl⟩, rfl, rfl⟩, rfl, rfl, rfl⟩

theorem SameButRegisters.setPc (s : State) (v : Byte) : SameButRegisters s (s.setPc v) :=
  ⟨⟨⟨rfl, rfl, rfl, rfl⟩, rfl, rfl⟩, rfl, rfl, rfl⟩

theorem advance_sameButRegisters {n : Nat} {s t : State} (h : advance n s = .next t) :
    SameButRegisters s t := by
  obtain ⟨-, rfl⟩ := advance_eq_next.1 h
  exact .setPc s _

theorem jumpTo_sameButRegisters {a : Byte} {s t : State} (h : jumpTo a s = .next t) :
    SameButRegisters s t := by
  obtain ⟨i, -, rfl⟩ := jumpTo_eq_next.1 h
  exact .setPc s _

theorem writeReg_sameButRegisters {a v : Byte} {s t : State} (h : writeReg a v s = .next t) :
    SameButRegisters s t := by
  obtain ⟨i, -, rfl⟩ := writeReg_eq_next.1 h
  exact .setReg s i v

theorem writeReg_advance_sameButRegisters {a v : Byte} {n : Nat} {s t : State}
    (h : andThen (writeReg a v s) (advance n) = .next t) : SameButRegisters s t := by
  obtain ⟨u, hu, h⟩ := andThen_eq_next.1 h
  exact (writeReg_sameButRegisters hu).trans (advance_sameButRegisters h)

/-- Around a store, the decrement of SP is one more register written. -/
theorem decSp_setMem_sameButRegisters (s : State) (m : Memory) :
    SameButRegisters (s.setMem m) ((decSp s).setMem m) :=
  .setReg (s.setMem m) 7 _

/-- A store and the advance after it write one cell and PC. -/
theorem memWrite_advance_sameButRegisters {addr : Nat} {v : Byte} {n : Nat} {s t : State}
    (h : andThen (memWrite addr v s) (advance n) = .next t) :
    SameButRegisters (s.setMem (s.mem.write addr v)) t := by
  obtain ⟨u, hu, h⟩ := andThen_eq_next.1 h
  obtain ⟨-, rfl⟩ := memWrite_eq_next.1 hu
  exact advance_sameButRegisters h

/-- What an instruction with that mnemonic may write beside registers and PC (rules R33, R40, R55, R204). -/
inductive ExecWrites (s t : State) : Mnemonic → Prop where
  | nothing {m : Mnemonic} (h : SameButRegisters s t) : ExecWrites s t m
  | flags {m : Mnemonic} (hm : m ∈ [Mnemonic.cmp, .iret]) (v : Byte) (h : SameButRegisters (s.setFl v) t) :
      ExecWrites s t m
  | output {m : Mnemonic} (hm : m ∈ [Mnemonic.prn, .pra]) (e : Event) (h : SameButRegisters (s.emit e) t) :
      ExecWrites s t m
  | memory {m : Mnemonic} (hm : m ∈ [Mnemonic.st, .push, .call]) (mem : Memory)
      (h : SameButRegisters (s.setMem mem) t) : ExecWrites s t m
  | clock {m : Mnemonic} (hm : m = .hlt) (h : SameButRegisters (halt s) t) : ExecWrites s t m

/-- Every instruction that completes writes only what `ExecWrites` allows its mnemonic. -/
theorem exec_writes {i : Instr} {s t : State} (h : exec i s = .next t) : ExecWrites s t i.mnemonic := by
  cases i with
  | ldi a imm => exact .nothing (writeReg_advance_sameButRegisters h)
  | add a b | mul a b =>
    obtain ⟨v, -, h⟩ := andThen_eq_next.1 h
    exact .nothing (writeReg_advance_sameButRegisters h)
  | pop a =>
    obtain ⟨v, -, h⟩ := andThen_eq_next.1 h
    obtain ⟨u, hu, h⟩ := andThen_eq_next.1 h
    have hsp : SameButRegisters u (incSp u) := .setReg u 7 _
    exact .nothing ((writeReg_sameButRegisters hu).trans (hsp.trans (advance_sameButRegisters h)))
  | ret =>
    obtain ⟨⟨v, u⟩, hu, h⟩ := andThen_eq_next.1 h
    obtain ⟨-, -, rfl⟩ := pop_eq_next.1 hu
    cases h
    exact .nothing ((SameButRegisters.setReg s 7 _).trans (.setPc _ v))
  | jmp a => exact .nothing (jumpTo_sameButRegisters h)
  | jeq a | jne a =>
    rcases ite_eq_iff.1 h with ⟨-, h⟩ | ⟨-, h⟩
    · exact .nothing (jumpTo_sameButRegisters h)
    · exact .nothing (advance_sameButRegisters h)
  | cmp a b =>
    obtain ⟨v, -, h⟩ := andThen_eq_next.1 h
    exact .flags (by simp [Instr.mnemonic]) v (advance_sameButRegisters h)
  | iret =>
    obtain ⟨hrun, hout, hmem, -⟩ := interruptReturn_frame h
    exact .flags (by simp [Instr.mnemonic]) t.fl ⟨hrun, rfl, hout, hmem⟩
  | prn a | pra a =>
    obtain ⟨v, -, h⟩ := andThen_eq_next.1 h
    exact .output (by simp [Instr.mnemonic]) _ (advance_sameButRegisters h)
  | st a b =>
    obtain ⟨addr, -, h⟩ := andThen_eq_next.1 h
    obtain ⟨v, -, h⟩ := andThen_eq_next.1 h
    exact .memory (by simp [Instr.mnemonic]) _ (memWrite_advance_sameButRegisters h)
  | push a =>
    obtain ⟨v, -, h⟩ := andThen_eq_next.1 h
    exact .memory (by simp [Instr.mnemonic]) _
      ((decSp_setMem_sameButRegisters s _).trans (memWrite_advance_sameButRegisters h))
  | call a =>
    obtain ⟨u, hu, h⟩ := andThen_eq_next.1 h
    obtain ⟨-, rfl⟩ := push_eq_next.1 hu
    exact .memory (by simp [Instr.mnemonic]) _
      ((decSp_setMem_sameButRegisters s _).trans (jumpTo_sameButRegisters h))
  | hlt => exact .clock rfl (advance_sameButRegisters h)

/-- Settles O35: the surroundings by `exec_effect`, the rest by what `exec_writes` allows each mnemonic. -/
theorem onlyTheNamedInstructionsWrite : Obligations.OnlyTheNamedInstructionsWrite := by
  intro i s t h
  refine ⟨(exec_effect h).surroundings, ?_⟩
  cases exec_writes h with
  | nothing hsame =>
    obtain ⟨⟨-, hrun⟩, hfl, hout, hmem⟩ := hsame
    exact ⟨fun _ => hfl, fun _ => hout, fun _ addr => congrArg (·.read addr) hmem, fun _ => hrun⟩
  | flags hm v hsame =>
    obtain ⟨⟨-, hrun⟩, -, hout, hmem⟩ := hsame
    exact ⟨fun hn => absurd hm hn, fun _ => hout, fun _ addr => congrArg (·.read addr) hmem, fun _ => hrun⟩
  | output hm e hsame =>
    obtain ⟨⟨-, hrun⟩, hfl, -, hmem⟩ := hsame
    exact ⟨fun _ => hfl, fun hn => absurd hm hn, fun _ addr => congrArg (·.read addr) hmem, fun _ => hrun⟩
  | memory hm mem hsame =>
    obtain ⟨⟨-, hrun⟩, hfl, hout, -⟩ := hsame
    exact ⟨fun _ => hfl, fun _ => hout, fun hn => absurd hm hn, fun _ => hrun⟩
  | clock hm hsame =>
    obtain ⟨-, -, -, hfl', hmem', hout'⟩ := halt_frame s
    obtain ⟨-, hfl, hout, hmem⟩ := hsame
    exact ⟨fun _ => hfl.trans hfl', fun _ => hout.trans hout',
      fun _ addr => congrArg (·.read addr) (hmem.trans hmem'), fun hn => absurd hm hn⟩

end Sys2Proof.Machine

/-! ### The memory port -/

namespace Sys2Proof.Machine

/-- Settles O40: the port's branches, and the law of reads over one write. -/
theorem memoryPortReadsAndWrites : Obligations.MemoryPortReadsAndWrites := by
  refine ⟨fun s addr h => memRead_in h, fun s addr h => ?_, fun s addr v h => ?_, fun s addr v h => ?_⟩
  · rw [memRead_out h]
    exact raise_aborts rfl
  · exact ⟨s.mem.write addr v, memWrite_in h, Memory.read_write_same _ _ _,
      fun b hb => Memory.read_write_other _ _ hb⟩
  · rw [memWrite_out h]
    exact raise_aborts rfl

end Sys2Proof.Machine

/-! ### Which cycles complete

What it takes for a handler, an interrupt entry and a cycle to answer a next state. With `MEM_SIZE` 256 every byte
is an address, so that only the advance of PC and the register indices are left to fault. -/

/-! ### The operands of an instruction -/

namespace Sys2Proof

/-- No instruction has more than two operand bytes (rule R95). -/
theorem Instr.operandCount_le_two (i : Instr) : i.operandCount ≤ 2 := by
  cases i <;> simp [Instr.operandCount, Instr.mnemonic, Mnemonic.operandCount]

theorem Instr.wellFormed_of_no_register {i : Instr} (h : i.registerOperands = []) : i.WellFormed := by
  simp [Instr.WellFormed, h]

theorem Instr.wellFormed_of_one_register {i : Instr} {a : Byte} (h : i.registerOperands = [a]) :
    i.WellFormed ↔ a.toNat < 8 := by
  simp [Instr.WellFormed, h]

theorem Instr.wellFormed_of_two_registers {i : Instr} {a b : Byte} (h : i.registerOperands = [a, b]) :
    i.WellFormed ↔ a.toNat < 8 ∧ b.toNat < 8 := by
  simp [Instr.WellFormed, h]

end Sys2Proof

namespace Sys2Proof.Machine

/-! ### Completion of the shared operations -/

@[simp] theorem completes_next (t : State) : Completes (.next t) := ⟨t, rfl⟩

/-- A sequence completes exactly where its first part answers and its second part completes, when whether the
second does is the same for every answer. -/
theorem completes_andThen {α : Type} {x : Res α} {f : α → Res State} {P Q : Prop} (hx : (∃ v, x = .next v) ↔ P)
    (hf : ∀ v, x = .next v → (Completes (f v) ↔ Q)) : Completes (andThen x f) ↔ P ∧ Q := by
  constructor
  · rintro ⟨t, ht⟩
    obtain ⟨v, hv, ht⟩ := andThen_eq_next.1 ht
    exact ⟨hx.1 ⟨v, hv⟩, (hf v hv).1 ⟨t, ht⟩⟩
  · rintro ⟨hp, hq⟩
    obtain ⟨v, hv⟩ := hx.2 hp
    rw [hv]
    exact (hf v hv).2 hq

/-- A sequence whose first part has answered completes as its second part does. -/
theorem completes_andThen_of_next {α : Type} {x : Res α} {f : α → Res State} {v : α} (hx : x = .next v) :
    Completes (andThen x f) ↔ Completes (f v) := by
  rw [hx, andThen_next]

/-- A register named by an operand byte gives an answer exactly where the byte is below 8 (rule R86). -/
theorem exists_register_answer {α : Type} {a : Byte} {f : Fin 8 → α} :
    (∃ v, ∃ i : Fin 8, a.toNat = i.val ∧ v = f i) ↔ a.toNat < 8 :=
  ⟨fun ⟨_, i, hi, _⟩ => hi ▸ i.isLt, fun h => ⟨_, ⟨a.toNat, h⟩, rfl, rfl⟩⟩

theorem readReg_answers {a : Byte} {s : State} : (∃ v, readReg a s = .next v) ↔ a.toNat < 8 := by
  simp only [readReg_eq_next, exists_register_answer]

theorem writeReg_answers {a v : Byte} {s : State} : (∃ t, writeReg a v s = .next t) ↔ a.toNat < 8 := by
  simp only [writeReg_eq_next, exists_register_answer]

theorem jumpTo_completes {a : Byte} {s : State} : Completes (jumpTo a s) ↔ a.toNat < 8 := by
  simp only [Completes, jumpTo_eq_next, exists_register_answer]

/-- The ALU answers for every operation but an unsupported one (rule R130). -/
theorem aluCompute_isSome {op : AluOp} (hop : ∀ name, op ≠ .unsupported name) (va vb : Byte) :
    (aluCompute op va vb).isSome := by
  cases op with
  | add | mul | cmp => rfl
  | unsupported name => exact absurd rfl (hop name)

theorem aluOperands_answers {op : AluOp} (hop : ∀ name, op ≠ .unsupported name) {a b : Byte} {s : State} :
    (∃ v, aluOperands op a b s = .next v) ↔ a.toNat < 8 ∧ b.toNat < 8 := by
  simp only [aluOperands_eq_next]
  constructor
  · rintro ⟨_, i, j, hi, hj, -⟩
    exact ⟨hi ▸ i.isLt, hj ▸ j.isLt⟩
  · rintro ⟨ha, hb⟩
    obtain ⟨v, hv⟩ := Option.isSome_iff_exists.1
      (aluCompute_isSome hop (s.reg ⟨a.toNat, ha⟩) (s.reg ⟨b.toNat, hb⟩))
    exact ⟨v, _, _, rfl, rfl, hv⟩

theorem advance_completes {n : Nat} {s : State} : Completes (advance n s) ↔ s.pc.toNat + 1 + n ≤ 0xFF :=
  ⟨fun ⟨_, h⟩ => (advance_eq_next.1 h).1, fun h => ⟨_, advance_in h⟩⟩

/-- Writing a register and advancing. -/
theorem writeReg_advance_completes {a v : Byte} {n : Nat} {s : State} :
    Completes (andThen (writeReg a v s) (advance n)) ↔ a.toNat < 8 ∧ s.pc.toNat + 1 + n ≤ 0xFF :=
  completes_andThen writeReg_answers fun t ht => by
    obtain ⟨i, -, rfl⟩ := writeReg_eq_next.1 ht
    exact advance_completes

/-- The handler of ADD and MUL: regA is checked before the ALU's call, so the write cannot fail. -/
theorem aluOperands_writeReg_advance_completes {op : AluOp} (hop : ∀ name, op ≠ .unsupported name) {a b : Byte}
    {n : Nat} {s : State} :
    Completes (andThen (aluOperands op a b s) fun v => andThen (writeReg a v s) (advance n)) ↔
      (a.toNat < 8 ∧ b.toNat < 8) ∧ s.pc.toNat + 1 + n ≤ 0xFF :=
  completes_andThen (aluOperands_answers hop) fun v hv => by
    have ha : a.toNat < 8 := ((aluOperands_answers hop).1 ⟨v, hv⟩).1
    rw [writeReg_advance_completes, and_iff_right ha]

/-! ### With `MEM_SIZE` 256 every byte is an address -/

section

variable {s : State} (hm : s.cfg.memSize = 256)
include hm

theorem byte_lt_memSize (x : Byte) : x.toNat < s.cfg.memSize := hm ▸ x.isLt

theorem memRead_byte (x : Byte) : memRead x.toNat s = .next (s.mem.read x.toNat) :=
  memRead_in (byte_lt_memSize hm x)

/-- Storing a byte and advancing. -/
theorem memWrite_advance_completes (x v : Byte) {n : Nat} :
    Completes (andThen (memWrite x.toNat v s) (advance n)) ↔ s.pc.toNat + 1 + n ≤ 0xFF :=
  (completes_andThen_of_next (memWrite_in (byte_lt_memSize hm x))).trans advance_completes

theorem andThen_pop_completes {f : Byte × State → Res State} :
    Completes (andThen (pop s) f) ↔ Completes (f (s.mem.read (s.reg 7).toNat, s.setReg 7 (s.reg 7 + 1))) :=
  completes_andThen_of_next (pop_in (byte_lt_memSize hm _))

/-- An interrupt entry has room for its frame and finds its vector. -/
theorem interruptEntry_completes (n : Fin 8) : Completes (interruptEntry n s) := by
  obtain ⟨t, ht, -, -⟩ := pushAll_in (s := clearMaskAndStatus s) (vs := interruptFrame (clearMaskAndStatus s))
    (by simp [interruptFrame]) fun k _ _ => byte_lt_memSize hm _
  obtain ⟨⟨⟨hcfg, -⟩, -⟩, -⟩ := pushAll_frame ht
  have hvec : ivtBase + n.val < t.cfg.memSize := by
    have hbase : ivtBase = 248 := rfl
    rw [hcfg, show (clearMaskAndStatus s).cfg = s.cfg from rfl, hm]
    omega
  exact (completes_andThen_of_next ht).2 ((completes_andThen_of_next (memRead_in hvec)).2 (completes_next _))

/-- The return from an interrupt finds its frame wherever SP points. -/
theorem interruptReturn_completes : Completes (interruptReturn s) := by
  obtain ⟨t, ht, -⟩ := popInto_in (s := s) (is := [6, 5, 4, 3, 2, 1, 0]) (by decide) (by decide)
    fun k _ => byte_lt_memSize hm _
  obtain ⟨⟨⟨hcfg, -⟩, -⟩, -⟩ := popInto_frame ht
  have hmt : t.cfg.memSize = 256 := hcfg ▸ hm
  rw [interruptReturn, completes_andThen_of_next ht, andThen_pop_completes hmt]
  exact (andThen_pop_completes (s := (t.setReg 7 (t.reg 7 + 1)).setFl _) hmt).2 (completes_next _)

end

/-! ### Completion of an instruction -/

section

variable {s : State} {i : Instr} {R : Prop}

/-- A handler that ends in the generic advance needs its registers and, at 0xFD, no second operand (rule R107). -/
theorem advancing_completes (hpc : s.pc.toNat ≤ 0xFD) (hR : i.WellFormed ↔ R)
    (hx : Completes (exec i s) ↔ R ∧ s.pc.toNat + 1 + i.operandCount ≤ 0xFF) :
    Completes (exec i s) ↔ i.WellFormed ∧ (s.pc.toNat = 0xFD → i.operandCount ≤ 1) := by
  have hn : i.operandCount ≤ 2 := i.operandCount_le_two
  rw [hx, hR]
  exact and_congr_right' (by omega)

/-- A handler that writes PC needs its registers only (rule R157). -/
theorem jumping_completes (hn : i.operandCount ≤ 1) (hR : i.WellFormed ↔ R) (hx : Completes (exec i s) ↔ R) :
    Completes (exec i s) ↔ i.WellFormed ∧ (s.pc.toNat = 0xFD → i.operandCount ≤ 1) := by
  rw [hx, hR, and_iff_left fun _ => hn]

end

section

variable {s : State} (hm : s.cfg.memSize = 256) (hpc : s.pc.toNat ≤ 0xFD)
include hpc

/-- An untaken jump only advances, whatever its operand byte names (rules R153, R154). -/
theorem exec_completes_of_fallsThrough {i : Instr} (hi : s.FallsThrough i) :
    Completes (exec i s) ∧ i.operandCount ≤ 1 := by
  have hadv : Completes (advance 1 s) := advance_completes.2 (by omega)
  rcases hi with ⟨a, rfl, he⟩ | ⟨a, rfl, he⟩
  · exact ⟨by simpa [exec, execJeq, he] using hadv, Nat.le_refl 1⟩
  · exact ⟨by simpa [exec, execJne, he] using hadv, Nat.le_refl 1⟩

include hm

/-- Every other instruction needs its registers and, when it advances over two operands, a PC below 0xFD. -/
theorem exec_completes_of_not_fallsThrough {i : Instr} (hi : ¬ s.FallsThrough i) :
    Completes (exec i s) ↔ i.WellFormed ∧ (s.pc.toNat = 0xFD → i.operandCount ≤ 1) := by
  cases i with
  | ldi a imm => exact advancing_completes hpc (Instr.wellFormed_of_one_register rfl) writeReg_advance_completes
  | st a b =>
    refine advancing_completes hpc (Instr.wellFormed_of_two_registers rfl) (Iff.trans ?_ and_assoc.symm)
    exact completes_andThen readReg_answers fun x _ =>
      completes_andThen readReg_answers fun v _ => memWrite_advance_completes hm x v
  | add a b | mul a b =>
    refine advancing_completes hpc (Instr.wellFormed_of_two_registers rfl) ?_
    exact aluOperands_writeReg_advance_completes (by simp)
  | cmp a b =>
    refine advancing_completes hpc (Instr.wellFormed_of_two_registers rfl) ?_
    exact completes_andThen (aluOperands_answers (by simp)) fun v _ => advance_completes
  | push a =>
    refine advancing_completes hpc (Instr.wellFormed_of_one_register rfl) ?_
    exact completes_andThen readReg_answers fun v _ => memWrite_advance_completes (s := decSp s) hm _ v
  | pop a =>
    refine advancing_completes hpc (Instr.wellFormed_of_one_register rfl) ?_
    refine (completes_andThen_of_next (memRead_byte hm s.sp)).trans ?_
    refine completes_andThen writeReg_answers fun t ht => ?_
    obtain ⟨j, -, rfl⟩ := writeReg_eq_next.1 ht
    exact advance_completes
  | call a =>
    refine jumping_completes (Nat.le_refl 1) (Instr.wellFormed_of_one_register rfl) ?_
    exact (completes_andThen_of_next (push_in (byte_lt_memSize hm _))).trans jumpTo_completes
  | ret =>
    refine jumping_completes (Nat.zero_le 1) (iff_true_intro (Instr.wellFormed_of_no_register rfl)) ?_
    exact (andThen_pop_completes hm).trans (iff_true_intro (completes_next _))
  | jmp a => exact jumping_completes (Nat.le_refl 1) (Instr.wellFormed_of_one_register rfl) jumpTo_completes
  | jeq a =>
    have hx : exec (.jeq a) s = jumpTo a s :=
      if_pos (Bool.of_not_eq_false fun he => hi (.inl ⟨a, rfl, he⟩))
    exact jumping_completes (Nat.le_refl 1) (Instr.wellFormed_of_one_register rfl) (hx ▸ jumpTo_completes)
  | jne a =>
    have hx : exec (.jne a) s = jumpTo a s :=
      if_pos (Bool.of_not_eq_true fun he => hi (.inr ⟨a, rfl, he⟩))
    exact jumping_completes (Nat.le_refl 1) (Instr.wellFormed_of_one_register rfl) (hx ▸ jumpTo_completes)
  | prn a | pra a =>
    refine advancing_completes hpc (Instr.wellFormed_of_one_register rfl) ?_
    exact completes_andThen readReg_answers fun v _ => advance_completes
  | iret =>
    exact jumping_completes (Nat.zero_le 1) (iff_true_intro (Instr.wellFormed_of_no_register rfl))
      (iff_true_intro (interruptReturn_completes hm))
  | hlt =>
    obtain ⟨-, -, hpc', -⟩ := halt_frame s
    refine advancing_completes hpc (iff_true_intro (Instr.wellFormed_of_no_register rfl)) ?_
    exact advance_completes.trans (by rw [hpc', true_and]; rfl)

/-- Which instructions complete where three bytes can be fetched (rules R107, R153, R154, R183). -/
theorem exec_completes (i : Instr) :
    Completes (exec i s) ↔ (i.WellFormed ∨ s.FallsThrough i) ∧ (s.pc.toNat = 0xFD → i.operandCount ≤ 1) := by
  by_cases hi : s.FallsThrough i
  · obtain ⟨hx, hn⟩ := exec_completes_of_fallsThrough hpc hi
    exact iff_of_true hx ⟨.inr hi, fun _ => hn⟩
  · rw [exec_completes_of_not_fallsThrough hm hpc hi, or_iff_left hi]

end

/-! ### Completion of a cycle -/

/-- Fetching and running completes exactly where three bytes can be fetched and the handler of the instruction
that stands there, if one does, completes (rules R103, R108). -/
theorem fetchAndRun_completes (handler : Instr → State → Res State) (s : State) :
    Completes (fetchAndRun handler s) ↔
      s.pc.toNat + 2 < s.cfg.memSize ∧ ∀ i, s.InstrAt i → Completes (handler i s) := by
  constructor
  · rintro ⟨t, ht⟩
    obtain ⟨w, hw, -⟩ := andThen_eq_next.1 ht
    exact ⟨(fetch_eq_next.1 hw).1, fun i hi => ⟨t, fetchAndRun_instrAt handler hi ▸ ht⟩⟩
  · rintro ⟨hpc, h⟩
    cases hd : decodeWith s.cfg.opc (s.mem.read s.pc.toNat) (s.mem.read (s.pc.toNat + 1))
        (s.mem.read (s.pc.toNat + 2)) with
    | ok i =>
      have hi : s.InstrAt i := ⟨hpc, hd⟩
      rw [fetchAndRun_instrAt handler hi]
      exact h i hi
    | error r =>
      simp only [fetchAndRun, fetch_in hpc, andThen_next, hd]
      exact completes_next _

/-- A cycle with `MEM_SIZE` 256 completes exactly where the watchdog is due, an interrupt is pending or the fetch
and run completes (rules R101, R102). -/
theorem cycleWith_completes (handler : Instr → State → Res State) {s : State} (hm : s.cfg.memSize = 256) :
    Completes (cycleWith handler s) ↔
      s.cfg.cycleCeiling ≤ s.cycles ∨ s.pending ≠ 0 ∨ Completes (fetchAndRun handler (counted s)) := by
  rcases cycleWith_cases handler s with ⟨hc, e⟩ | ⟨-, n, hn, e⟩ | ⟨hc, hn, e⟩ <;> rw [e]
  · exact iff_of_true (completes_next _) (.inl (by omega))
  · have hp : s.pending ≠ 0 := fun hp => by
      rw [lowestSource_eq_none.2 hp] at hn
      cases hn
    exact iff_of_true (interruptEntry_completes (s := counted s) hm n) (.inr (.inl hp))
  · have hp : s.pending = 0 := lowestSource_eq_none.1 hn
    simp [hp, show ¬ s.cfg.cycleCeiling ≤ s.cycles by omega]

/-- Settles O37: a tick is a cycle, and what is left of it after the watchdog and the interrupt check is the fetch
and the instruction that stands at PC. -/
theorem fullMemoryCyclesComplete : Obligations.FullMemoryCyclesComplete := by
  intro s htick hm
  have hcycle : Completes (cycleWith exec (s.setMoves s.moves.tail)) ↔
      s.cfg.cycleCeiling ≤ s.cycles ∨ s.im &&& s.is ≠ 0 ∨ Completes (fetchAndRun exec s.ticked) :=
    cycleWith_completes exec (s := s.setMoves s.moves.tail) hm
  have hfetch : Completes (fetchAndRun exec s.ticked) ↔
      s.pc.toNat + 2 < s.cfg.memSize ∧ ∀ i, s.InstrAt i → Completes (exec i s.ticked) :=
    fetchAndRun_completes exec s.ticked
  rw [step_tick htick, hcycle, hfetch, show s.pc.toNat + 2 < s.cfg.memSize ↔ s.pc.toNat ≤ 0xFD by omega]
  refine or_congr_right (or_congr_right (and_congr_right fun hpc => forall₂_congr fun i _ => ?_))
  exact exec_completes (s := s.ticked) hm hpc i

end Sys2Proof.Machine

/-! ### Decoding and encoding

The decoder is the table's lookup and then `Mnemonic.instr`; the encoder inverts `Mnemonic.instr` for every table,
and a legal table's lookup inverts the table. -/

namespace Sys2Proof

/-! ### The instruction of a mnemonic -/

@[simp] theorem Mnemonic.instr_mnemonic (m : Mnemonic) (a b : Byte) : (m.instr a b).mnemonic = m := by
  cases m <;> rfl

@[simp] theorem Mnemonic.instr_operandCount (m : Mnemonic) (a b : Byte) :
    (m.instr a b).operandCount = m.operandCount :=
  congrArg Mnemonic.operandCount (m.instr_mnemonic a b)

theorem Mnemonic.instr_operandBytes (m : Mnemonic) (a b : Byte) :
    (m.instr a b).operandBytes = [a, b].take m.operandCount := by
  cases m <;> rfl

/-- No mnemonic has more than two operand bytes (rule R95). -/
theorem Mnemonic.operandCount_le_two (m : Mnemonic) : m.operandCount ≤ 2 := by
  rw [← m.instr_operandCount 0 0]
  exact (m.instr 0 0).operandCount_le_two

/-- Of the two operand bytes handed to it, a mnemonic's instruction encodes the first ones (rules R81, R83). -/
theorem encodeWith_instr (o : Opc) (m : Mnemonic) (a b : Byte) :
    encodeWith o (m.instr a b) = [o.byte m, a, b].take (1 + m.operandCount) := by
  rw [encodeWith, m.instr_mnemonic, m.instr_operandBytes, Nat.add_comm, List.take_succ_cons]

/-! ### Decoding a list by the operand count -/

section

variable {o : Opc} {opcode : Byte} {m : Mnemonic} (hm : o.lookup opcode = some m) (rest : List Byte)
include hm

theorem decodeBytesWith_no_operand (hn : m.operandCount = 0) :
    decodeBytesWith o (opcode :: rest) = .ok (m.instr 0 0, rest) := by
  simp only [decodeBytesWith, hm, hn]

theorem decodeBytesWith_one_operand (hn : m.operandCount = 1) (a : Byte) :
    decodeBytesWith o (opcode :: a :: rest) = .ok (m.instr a 0, rest) := by
  simp only [decodeBytesWith, hm, hn]

theorem decodeBytesWith_two_operands (hn : m.operandCount = 2) (a b : Byte) :
    decodeBytesWith o (opcode :: a :: b :: rest) = .ok (m.instr a b, rest) := by
  simp only [decodeBytesWith, hm, hn]

end

/-- Settles O5: a legal table's lookup finds the instruction's mnemonic, and the decoder then takes as many operand
bytes as the encoder has written. -/
theorem decodeOfEncode : Obligations.DecodeOfEncode := by
  intro o i rest hlegal
  have hlookup : o.lookup (o.byte i.mnemonic) = some i.mnemonic := Opc.lookup_of_legal hlegal i.mnemonic
  cases i with
  | ldi a b | st a b | add a b | mul a b | cmp a b => exact decodeBytesWith_two_operands hlookup rest rfl a b
  | push a | pop a | call a | jmp a | jeq a | jne a | prn a | pra a =>
    exact decodeBytesWith_one_operand hlookup rest rfl a
  | ret | iret | hlt => exact decodeBytesWith_no_operand hlookup rest rfl

/-! ### Decoding three bytes -/

/-- What decodes is the instruction of the mnemonic that the table has for the opcode byte. -/
theorem decodeWith_eq_ok {o : Opc} {opcode a b : Byte} {i : Instr} :
    decodeWith o opcode a b = .ok i ↔ ∃ m, o.lookup opcode = some m ∧ i = m.instr a b := by
  rw [decodeWith_eq]
  cases o.lookup opcode <;> simp [eq_comm]

/-- The decoder refuses exactly where the lookup finds nothing. -/
theorem decodeWith_eq_unknownOpcode {o : Opc} {opcode a b : Byte} :
    decodeWith o opcode a b = .error (.unknownOpcode opcode) ↔ o.lookup opcode = none := by
  rw [decodeWith_eq]
  cases o.lookup opcode <;> simp

/-- Settles O6: the lookup has found the opcode byte's mnemonic, and its instruction encodes to these bytes. -/
theorem encodeOfDecode : Obligations.EncodeOfDecode := by
  intro o opcode a b i h
  obtain ⟨m, hm, rfl⟩ := decodeWith_eq_ok.1 h
  rw [encodeWith_instr, Opc.lookup_byte hm, m.instr_operandCount]

/-! ### Legal tables -/

/-- The top two bits of a legal table's bytes are the operand count (rules R82, R95). -/
theorem Opc.Legal.opcodeCount_byte {o : Opc} (h : o.Legal) (m : Mnemonic) :
    opcodeCount (o.byte m) = m.operandCount := by
  obtain ⟨-, hcount, -⟩ := h
  exact hcount m m.mem_all

/-- A table of distinct bytes leaves 240 of the 256 unused: the complement of its sixteen. -/
theorem Opc.card_unknown {o : Opc} (h : (Mnemonic.all.map o.byte).Nodup) :
    (Finset.univ.filter fun x : Byte => ∀ m ∈ Mnemonic.all, o.byte m ≠ x).card = 240 := by
  have hcompl : (Finset.univ.filter fun x : Byte => ∀ m ∈ Mnemonic.all, o.byte m ≠ x) =
      (Mnemonic.all.map o.byte).toFinsetᶜ := by
    ext x
    simp
  have hbytes : Fintype.card Byte = 256 := FinEnum.card_eq_fintypeCard.symm.trans (FinEnum.card_bitVec 8)
  have htable : (Mnemonic.all.map o.byte).toFinset.card = 16 := List.toFinset_card_of_nodup h
  rw [hcompl, Finset.card_compl, hbytes, htable]

/-- No legal table holds a byte whose top two bits are both set: no instruction has three operands. -/
theorem Opc.Legal.byte_ne_of_ge {o : Opc} (h : o.Legal) {x : Byte} (hx : 0xC0 ≤ x.toNat) (m : Mnemonic) :
    o.byte m ≠ x := by
  rintro rfl
  have hcount : (o.byte m).toNat / 2 ^ 6 = m.operandCount := by
    rw [← h.opcodeCount_byte m, opcodeCount, BitVec.toNat_ushiftRight, Nat.shiftRight_eq_div_pow]
  have hle : m.operandCount ≤ 2 := m.operandCount_le_two
  omega

/-- Settles O7: the lookup fails exactly for the bytes outside the table; a legal table has sixteen bytes, each with
an operand count of at most 2 in its top two bits. -/
theorem unknownOpcodesAreRefused : Obligations.UnknownOpcodesAreRefused := by
  refine ⟨fun o opcode a b => ?_, fun o hlegal => ⟨?_, fun x hx m => hlegal.byte_ne_of_ge hx m⟩, fun m => ?_⟩
  · exact decodeWith_eq_unknownOpcode.trans Opc.lookup_eq_none
  · obtain ⟨hnodup, -⟩ := hlegal
    exact Opc.card_unknown hnodup
  · cases m <;> decide

/-- Settles O8: the opcode byte is the mnemonic's own, whose top two bits are the operand count in a legal table; the
encoding is that many of three bytes, and one more. -/
theorem operandCountIsTheTopTwoBits : Obligations.OperandCountIsTheTopTwoBits := by
  intro o opcode a b i hlegal h
  obtain ⟨m, hm, rfl⟩ := decodeWith_eq_ok.1 h
  have hcount : (opcode >>> 6).toNat = m.operandCount := by
    rw [← Opc.lookup_byte hm]
    exact hlegal.opcodeCount_byte m
  have hle : m.operandCount ≤ 2 := m.operandCount_le_two
  have hlength : (encodeWith o (m.instr a b)).length = 1 + m.operandCount := by
    rw [encodeWith_instr, List.length_take]
    exact Nat.min_eq_left (Nat.add_le_add_left hle 1)
  rw [hcount]
  exact ⟨m.instr_operandCount a b, hlength⟩

end Sys2Proof

/-! ### An unknown opcode -/

namespace Sys2Proof.Machine

/-- A fetch that does not fit into memory faults at the first of its three addresses that is out of range, with
nothing changed (rules R71, R103). -/
theorem fetch_out {s : State} (h : s.cfg.memSize ≤ s.pc.toNat + 2) :
    ∃ addr, s.cfg.memSize ≤ addr ∧ fetch s = raise (.outOfBoundsAccess addr) s := by
  by_cases h0 : s.cfg.memSize ≤ s.pc.toNat
  · exact ⟨_, h0, by simp only [fetch, memRead_out h0, andThen_raise]⟩
  by_cases h1 : s.cfg.memSize ≤ s.pc.toNat + 1
  · exact ⟨_, h1, by
      simp only [fetch, memRead_in (Nat.lt_of_not_le h0), memRead_out h1, andThen_next, andThen_raise]⟩
  · exact ⟨_, h, by
      simp only [fetch, memRead_in (Nat.lt_of_not_le h0), memRead_in (Nat.lt_of_not_le h1), memRead_out h,
        andThen_next, andThen_raise]⟩

/-- A tick below the ceiling with nothing pending fetches and runs (rules R101, R102). -/
theorem step_eq_fetchAndRun {s : State} (htick : s.TickNext) (hc : s.cycles < s.cfg.cycleCeiling)
    (hp : s.im &&& s.is = 0) : step s = fetchAndRun exec s.ticked :=
  (step_tick htick).trans (cycleWith_run exec (s := s.setMoves s.moves.tail) hc hp)

/-- The digits of a byte, by place from the left. -/
theorem binaryDigits_eq_range (v : Byte) :
    binaryDigits v = (List.range 8).map fun k => if v.getLsbD (7 - k) then '1' else '0' := rfl

/-- Settles O50: in range the fetch finds the unknown opcode, which is reported and halts the running machine; out of
range the fetch faults before anything is emitted. -/
theorem unknownOpcodeReportsAndHalts : Obligations.UnknownOpcodeReportsAndHalts := by
  refine ⟨fun s htick hc hp hpc hu => ?_, fun r opcode pc => ?_, fun s htick hc hp hpc _ => ?_⟩
  · have hlookup : s.cfg.opc.lookup (s.mem.read s.pc.toNat) = none := Opc.lookup_eq_none.2 hu
    calc step s = fetchAndRun exec s.ticked := step_eq_fetchAndRun htick hc hp
      _ = .next (halt (s.ticked.emit (.decodeError (s.mem.read s.pc.toNat) s.pc))) :=
        fetchAndRun_unknown exec (s := s.ticked) hpc hlookup
      _ = .next (((s.ticked.emit (.decodeError (s.mem.read s.pc.toNat) s.pc)).setRun .halted).setInvoked
          (s.invoked ++ s.onHalt.toList)) := congrArg _ (halt_running (s := s.ticked.emit _) htick.1)
  · rw [← binaryDigits_eq_range]
    rfl
  · obtain ⟨addr, haddr, hfetch⟩ := fetch_out (s := s.ticked) hpc
    refine ⟨addr, haddr, ?_⟩
    rw [step_eq_fetchAndRun htick hc hp, fetchAndRun, hfetch, andThen_raise]
    exact raise_aborts rfl

end Sys2Proof.Machine

/-! ### The order of the fetch's reads -/

namespace Sys2Proof.Machine

/-- The first of the three fetch addresses that is out of range is the one the fetch faults with (rules R71, R103). -/
theorem fetch_first_out {s : State} (k : Fin 3) (hout : s.cfg.memSize ≤ s.pc.toNat + k.val)
    (hin : ∀ j : Fin 3, j < k → s.pc.toNat + j.val < s.cfg.memSize) :
    fetch s = raise (.outOfBoundsAccess (s.pc.toNat + k.val)) s := by
  match k with
  | 0 =>
    have h0 : s.cfg.memSize ≤ s.pc.toNat := hout
    simp only [fetch, memRead_out h0, andThen_raise, Fin.val_zero, Nat.add_zero]
  | 1 =>
    have h0 : s.pc.toNat < s.cfg.memSize := hin 0 (by decide)
    have h1 : s.cfg.memSize ≤ s.pc.toNat + 1 := hout
    simp only [fetch, memRead_in h0, memRead_out h1, andThen_next, andThen_raise, Fin.val_one]
  | 2 =>
    have h0 : s.pc.toNat < s.cfg.memSize := hin 0 (by decide)
    have h1 : s.pc.toNat + 1 < s.cfg.memSize := hin 1 (by decide)
    have h2 : s.cfg.memSize ≤ s.pc.toNat + 2 := hout
    simp only [fetch, memRead_in h0, memRead_in h1, memRead_out h2, andThen_next, andThen_raise, Fin.val_two]

/-- Settles O51: in range the three reads succeed; otherwise the fetch, and with it the step, faults at the first
address that is out of range. -/
theorem fetchReadsThreeBytesInOrder : Obligations.FetchReadsThreeBytesInOrder := by
  refine ⟨fun s h => fetch_in h, fun s k htick hc hp hout hin => ?_⟩
  have hfetch : fetch s.ticked = raise (.outOfBoundsAccess (s.pc.toNat + k.val)) s.ticked :=
    fetch_first_out (s := s.ticked) k hout hin
  rw [step_eq_fetchAndRun htick hc hp, fetchAndRun, hfetch, andThen_raise]
  exact raise_aborts trivial

end Sys2Proof.Machine

/-! ### Load and store

The two common ends of handlers, each said once: a register written and PC advanced, a cell written and PC
advanced. LDI is the first, ADD and MUL end in it, and ST ends in the second. -/

namespace Sys2Proof.Machine

theorem toNat_regByte (i : Fin 8) : (regByte i).toNat = i.val :=
  regIndex_eq_some.1 (regIndex_regByte i)

/-! ### The common ends of handlers -/

/-- The generic advance as a sum of bytes (rule R106). -/
theorem advance_eq_next_add {n : Nat} {s t : State} :
    advance n s = .next t ↔
      s.pc.toNat + (n + 1) ≤ 0xFF ∧ t = s.setPc (s.pc + BitVec.ofNat 8 (n + 1)) := by
  have hsum : BitVec.ofNat 8 (s.pc.toNat + (n + 1)) = s.pc + BitVec.ofNat 8 (n + 1) := by
    rw [BitVec.ofNat_add, BitVec.ofNat_toNat, BitVec.setWidth_eq]
  rw [advance_eq_next, Nat.add_assoc, Nat.add_comm 1 n, hsum]

/-- What writing a register and advancing answers. -/
theorem writeReg_advance_eq_next {a v : Byte} {n : Nat} {s t : State} :
    andThen (writeReg a v s) (advance n) = .next t ↔
      ∃ i : Fin 8, a.toNat = i.val ∧ s.pc.toNat + (n + 1) ≤ 0xFF ∧
        t = (s.setReg i v).setPc (s.pc + BitVec.ofNat 8 (n + 1)) := by
  constructor
  · intro h
    obtain ⟨u, hu, h⟩ := andThen_eq_next.1 h
    obtain ⟨i, hi, rfl⟩ := writeReg_eq_next.1 hu
    exact ⟨i, hi, advance_eq_next_add.1 h⟩
  · rintro ⟨i, hi, h⟩
    exact andThen_eq_next.2 ⟨s.setReg i v, writeReg_eq_next.2 ⟨i, hi, rfl⟩, advance_eq_next_add.2 h⟩

/-- What storing a byte and advancing answers. -/
theorem memWrite_advance_eq_next {addr : Nat} {v : Byte} {n : Nat} {s t : State} :
    andThen (memWrite addr v s) (advance n) = .next t ↔
      addr < s.cfg.memSize ∧ s.pc.toNat + (n + 1) ≤ 0xFF ∧
        t = (s.setMem (s.mem.write addr v)).setPc (s.pc + BitVec.ofNat 8 (n + 1)) := by
  constructor
  · intro h
    obtain ⟨u, hu, h⟩ := andThen_eq_next.1 h
    obtain ⟨haddr, rfl⟩ := memWrite_eq_next.1 hu
    exact ⟨haddr, advance_eq_next_add.1 h⟩
  · rintro ⟨haddr, h⟩
    exact andThen_eq_next.2 ⟨_, memWrite_in haddr, advance_eq_next_add.2 h⟩

/-- Writing a register and advancing leaves the other registers alone. -/
theorem writeReg_advance_reg_other {a v : Byte} {n : Nat} {s t : State}
    (h : andThen (writeReg a v s) (advance n) = .next t) {j : Fin 8} (hj : j.val ≠ a.toNat) :
    t.reg j = s.reg j := by
  obtain ⟨i, hi, -, rfl⟩ := writeReg_advance_eq_next.1 h
  have hij : i ≠ j := fun e => hj (e ▸ hi.symm)
  rw [State.setPc_reg, State.setReg_reg_other _ _ hij]

/-! ### LDI, and the frame that it shares with ADD and MUL -/

/-- LDI is a register write and the generic advance (rule R120). -/
theorem exec_ldi (a b : Byte) (s : State) : exec (.ldi a b) s = andThen (writeReg a b s) (advance 2) := rfl

/-- Settles O10: LDI is the common end of the register-writing handlers; a bad index faults in its first part. -/
theorem ldiLoadsTheImmediate : Obligations.LdiLoadsTheImmediate := by
  refine ⟨fun o a b hlegal => ?_, fun s i b hpc => ?_, fun s a b ha => ?_⟩
  · obtain ⟨-, -, hldi, -⟩ := hlegal
    exact congrArg (· :: [a, b]) hldi
  · rw [exec_ldi]
    exact writeReg_advance_eq_next.2 ⟨i, toNat_regByte i, hpc, rfl⟩
  · rw [exec_ldi, writeReg_bad ha, andThen_raise]
    exact raise_aborts rfl

/-- LDI, ADD and MUL that complete end in a write of the first operand's register and the generic advance, with
nothing changed before. -/
theorem exec_ldiAddMul_ends_in_writeReg {i : Instr} {a b : Byte} {s t : State}
    (hi : i ∈ [Instr.ldi a b, .add a b, .mul a b]) (h : exec i s = .next t) :
    ∃ v, andThen (writeReg a v s) (advance 2) = .next t := by
  simp only [List.mem_cons, List.not_mem_nil, or_false] at hi
  rcases hi with rfl | rfl | rfl
  case inl => exact ⟨b, h⟩
  case inr.inl | inr.inr =>
    obtain ⟨v, -, h⟩ := andThen_eq_next.1 h
    exact ⟨v, h⟩

/-- Settles O26: the three share their end, which writes one register and PC. -/
theorem ldiAddMulFrame : Obligations.LdiAddMulFrame := by
  intro i a b s t hi h
  obtain ⟨v, h⟩ := exec_ldiAddMul_ends_in_writeReg hi h
  obtain ⟨hrun, hfl, hout, hmem⟩ := writeReg_advance_sameButRegisters h
  exact ⟨hrun, hfl, hout, fun _ hj => writeReg_advance_reg_other h hj, fun addr => congrArg (·.read addr) hmem⟩

/-! ### ST -/

/-- ST reads its two operands and then stores and advances (rule R121). -/
theorem exec_st (a b : Byte) (s : State) :
    exec (.st a b) s = andThen (readReg a s) fun addr =>
      andThen (readReg b s) fun v => andThen (memWrite addr.toNat v s) (advance 2) := rfl

/-- ST with both registers named is the store of the second's byte at the first's address, and the generic
advance. -/
theorem exec_st_regByte (i j : Fin 8) (s : State) :
    exec (.st (regByte i) (regByte j)) s =
      andThen (memWrite (s.reg i).toNat (s.reg j) s) (advance 2) := by
  simp only [exec_st, readReg_regByte, andThen_next]

/-- What an ST that completes has read, and what it leaves. -/
theorem exec_st_result {a b : Byte} {s t : State} (h : exec (.st a b) s = .next t) :
    ∃ x v, readReg a s = .next x ∧ readReg b s = .next v ∧
      t = (s.setMem (s.mem.write x.toNat v)).setPc (s.pc + 3) := by
  obtain ⟨x, hx, h⟩ := andThen_eq_next.1 h
  obtain ⟨v, hv, h⟩ := andThen_eq_next.1 h
  obtain ⟨-, -, rfl⟩ := memWrite_advance_eq_next.1 h
  exact ⟨x, v, hx, hv, rfl⟩

/-- Settles O11: the operands are read in order and then the byte is stored, so the first of the three that fails
faults, and before the store memory is as it was. -/
theorem stStoresAtTheRegisterAddress : Obligations.StStoresAtTheRegisterAddress := by
  refine ⟨fun _ _ _ => rfl, fun s i j haddr hpc => ?_, fun s a b ha => ?_, fun s i b hb => ?_, fun s i j haddr => ?_⟩
  · rw [exec_st_regByte]
    exact memWrite_advance_eq_next.2 ⟨haddr, hpc, rfl⟩
  · rw [exec_st, readReg_bad ha, andThen_raise]
    exact raise_aborts rfl
  · rw [exec_st, readReg_regByte, andThen_next, readReg_bad hb, andThen_raise]
    exact raise_aborts rfl
  · rw [exec_st_regByte, memWrite_out haddr, andThen_raise]
    exact raise_aborts rfl

/-- Settles O30: what ST leaves is the state with one cell and PC written, and the cell is at the address read from
regA. -/
theorem stFrame : Obligations.StFrame := by
  intro a b s t h
  obtain ⟨x, v, hx, -, rfl⟩ := exec_st_result h
  refine ⟨⟨⟨rfl, rfl, rfl, rfl⟩, rfl, rfl⟩, rfl, rfl, fun _ => rfl, fun y hy addr haddr => ?_⟩
  obtain rfl : x = y := Host.Outcome.next.inj (hx.symm.trans hy)
  exact Memory.read_write_other s.mem v haddr

end Sys2Proof.Machine

/-! ### The ALU and its instructions

The ALU's own results, the call that ADD, MUL and CMP share (both operands read, then the ALU), and the end that ADD
and MUL share. -/

namespace Sys2Proof.Machine

/-! ### The ALU -/

/-- A sum's or product's byte is its remainder modulo 256 (rules R132, R134). -/
theorem byte_ofNat_mod (n : Nat) : BitVec.ofNat 8 (n % 256) = BitVec.ofNat 8 n := by
  apply BitVec.eq_of_toNat_eq
  simp only [BitVec.toNat_ofNat, Nat.reducePow, Nat.mod_mod]

theorem aluCompute_add (va vb : Byte) :
    aluCompute .add va vb = some (BitVec.ofNat 8 ((va.toNat + vb.toNat) % 256)) :=
  congrArg some (byte_ofNat_mod _).symm

theorem aluCompute_mul (va vb : Byte) :
    aluCompute .mul va vb = some (BitVec.ofNat 8 ((va.toNat * vb.toNat) % 256)) :=
  congrArg some (byte_ofNat_mod _).symm

/-- The flags byte, its test for equality read as one of bytes (rule R136). -/
theorem compareFlags_eq (va vb : Byte) :
    compareFlags va vb = if va = vb then 0x01 else if vb.toNat < va.toNat then 0x02 else 0x04 := by
  simp only [compareFlags, BitVec.toNat_inj, flagE, flagG, flagL]

/-- The ALU's answer, where it has one, changes nothing. -/
theorem alu_of_computes {op : AluOp} {va vb v : Byte} (s : State) (h : aluCompute op va vb = some v) :
    alu op va vb s = .next v := by
  rw [alu, h]

theorem alu_unsupported (name : String) (va vb : Byte) (s : State) :
    alu (.unsupported name) va vb s = raise (.invalidALUOperation name) s := rfl

/-- Settles O43: the three operations by their results, any other name by the raise it is. -/
theorem aluComputes : Obligations.AluComputes := by
  refine ⟨fun va vb => ⟨aluCompute_add va vb, aluCompute_mul va vb, ?_⟩, fun name va vb s => ?_⟩
  · exact congrArg some (compareFlags_eq va vb)
  · rw [alu_unsupported]
    exact raise_aborts rfl

/-! ### The handlers' call of the ALU -/

section
variable {op : AluOp} {s : State}

theorem aluOperands_regByte (op : AluOp) (i j : Fin 8) (s : State) :
    aluOperands op (regByte i) (regByte j) s = alu op (s.reg i) (s.reg j) s := by
  simp only [aluOperands, readReg_regByte, andThen_next]

/-- A bad regA faults in the first read, whatever regB and the rest of the handler. -/
theorem aluOperands_aborts_first {α : Type} {a : Byte} (b : Byte) {f : Byte → Res α} {leaves : State → Prop}
    (ha : 8 ≤ a.toNat) (h : leaves (s.setRun .faulted)) :
    Aborts (andThen (aluOperands op a b s) f) (.invalidRegisterIndex a) leaves := by
  rw [aluOperands, readReg_bad ha, andThen_raise, andThen_raise]
  exact raise_aborts h

/-- With regA named, a bad regB faults in the second read, whatever the rest of the handler. -/
theorem aluOperands_aborts_second {α : Type} (i : Fin 8) {b : Byte} {f : Byte → Res α} {leaves : State → Prop}
    (hb : 8 ≤ b.toNat) (h : leaves (s.setRun .faulted)) :
    Aborts (andThen (aluOperands op (regByte i) b s) f) (.invalidRegisterIndex b) leaves := by
  rw [aluOperands, readReg_regByte, andThen_next, readReg_bad hb, andThen_raise, andThen_raise]
  exact raise_aborts h

/-- With both registers named, the ALU's result is written to the first and PC advanced: the handler of ADD and of
MUL that completes. -/
theorem aluOperands_writeReg_advance_next {n : Nat} {i j : Fin 8} {v : Byte}
    (hv : aluCompute op (s.reg i) (s.reg j) = some v) (hpc : s.pc.toNat + (n + 1) ≤ 0xFF) :
    (andThen (aluOperands op (regByte i) (regByte j) s) fun w => andThen (writeReg (regByte i) w s) (advance n)) =
      .next ((s.setReg i v).setPc (s.pc + BitVec.ofNat 8 (n + 1))) := by
  rw [aluOperands_regByte, alu_of_computes s hv, andThen_next]
  exact writeReg_advance_eq_next.2 ⟨i, toNat_regByte i, hpc, rfl⟩

end

/-! ### ADD and MUL -/

/-- ADD calls the ALU on its operands, and then writes regA and advances (rule R131). -/
theorem exec_add (a b : Byte) (s : State) :
    exec (.add a b) s = andThen (aluOperands .add a b s) fun v => andThen (writeReg a v s) (advance 2) := rfl

/-- MUL calls the ALU on its operands, and then writes regA and advances (rule R133). -/
theorem exec_mul (a b : Byte) (s : State) :
    exec (.mul a b) s = andThen (aluOperands .mul a b s) fun v => andThen (writeReg a v s) (advance 2) := rfl

/-- Settles O12: the operands are read in order before the one register is written. -/
theorem addIsModulo256 : Obligations.AddIsModulo256 := by
  refine ⟨fun _ _ _ => rfl, fun s i j hpc => ?_, fun s a b ha => ?_, fun s i b hb => ?_⟩
  · rw [exec_add]
    exact aluOperands_writeReg_advance_next (aluCompute_add _ _) hpc
  · rw [exec_add]
    exact aluOperands_aborts_first b ha rfl
  · rw [exec_add]
    exact aluOperands_aborts_second i hb rfl

/-- Settles O13: as ADD, with the product for the sum, and MUL's opcode byte fixed by the legal table. -/
theorem mulIsModulo256 : Obligations.MulIsModulo256 := by
  refine ⟨fun o a b hlegal => ?_, fun s i j hpc => ?_, fun s a b ha => ?_, fun s i b hb => ?_⟩
  · obtain ⟨-, -, -, hmul, -⟩ := hlegal
    exact congrArg (· :: [a, b]) hmul
  · rw [exec_mul]
    exact aluOperands_writeReg_advance_next (aluCompute_mul _ _) hpc
  · rw [exec_mul]
    exact aluOperands_aborts_first b ha rfl
  · rw [exec_mul]
    exact aluOperands_aborts_second i hb rfl

/-! ### CMP -/

/-- CMP calls the ALU on its operands, and then writes FL and advances (rule R135). -/
theorem exec_cmp (a b : Byte) (s : State) :
    exec (.cmp a b) s = andThen (aluOperands .cmp a b s) fun v => advance 2 (s.setFl v) := rfl

/-- What CMP answers: FL and PC written. -/
theorem exec_cmp_eq_next {a b : Byte} {s t : State} :
    exec (.cmp a b) s = .next t ↔ ∃ i j : Fin 8, a.toNat = i.val ∧ b.toNat = j.val ∧ s.pc.toNat + 3 ≤ 0xFF ∧
      t = (s.setFl (compareFlags (s.reg i) (s.reg j))).setPc (s.pc + 3) := by
  rw [exec_cmp, andThen_eq_next]
  constructor
  · rintro ⟨v, hv, h⟩
    obtain ⟨i, j, hi, hj, hcmp⟩ := aluOperands_eq_next.1 hv
    obtain rfl : compareFlags (s.reg i) (s.reg j) = v := Option.some.inj hcmp
    exact ⟨i, j, hi, hj, advance_eq_next_add.1 h⟩
  · rintro ⟨i, j, hi, hj, h⟩
    exact ⟨_, aluOperands_eq_next.2 ⟨i, j, hi, hj, rfl⟩, advance_eq_next_add.2 h⟩

/-- Settles O14: the result is what CMP answers, and a bad operand faults before FL is written. -/
theorem cmpSetsExactlyOneFlag : Obligations.CmpSetsExactlyOneFlag := by
  refine ⟨fun _ _ _ => rfl, fun s i j hpc => ?_, fun s a b ha => ?_, fun s i b hb => ?_⟩
  · rw [← compareFlags_eq]
    exact exec_cmp_eq_next.2 ⟨i, j, toNat_regByte i, toNat_regByte j, hpc, rfl⟩
  · rw [exec_cmp]
    exact aluOperands_aborts_first b ha rfl
  · rw [exec_cmp]
    exact aluOperands_aborts_second i hb rfl

/-- Settles O27: a CMP that completes leaves the state with FL and PC written. -/
theorem cmpFrame : Obligations.CmpFrame := by
  intro a b s t h
  obtain ⟨i, j, -, -, -, rfl⟩ := exec_cmp_eq_next.1 h
  exact ⟨⟨⟨rfl, rfl, rfl, rfl⟩, rfl, rfl⟩, rfl, fun _ => rfl, fun _ => rfl⟩

end Sys2Proof.Machine

/-! ### The stack

What a push, PUSH, CALL, POP and RET answer, each said once, and what `n` pops read. The state after a push is named
(`State.pushed`), since PUSH and CALL differ only in the byte stored and in PC. -/

namespace Sys2Proof.Machine

/-! ### One push -/

/-- The state after a push of `v`: SP decremented, and the byte stored at the new SP (rule R140). -/
def State.pushed (s : State) (v : Byte) : State :=
  (s.setReg 7 (s.reg 7 - 1)).setMem (s.mem.write (s.reg 7 - 1).toNat v)

/-- A push completes exactly where the decremented SP is in range, and leaves `State.pushed`. -/
theorem push_eq_next_pushed {v : Byte} {s t : State} :
    push v s = .next t ↔ (s.reg 7 - 1).toNat < s.cfg.memSize ∧ t = s.pushed v :=
  push_eq_next

section
variable (s : State) (v : Byte)

/-- A push writes registers and memory only. -/
theorem State.pushed_sameRun : SameRun s (s.pushed v) := ⟨⟨rfl, rfl, rfl, rfl⟩, rfl, rfl⟩

/-- The only register that a push writes is SP. -/
theorem State.pushed_reg (j : Fin 8) : (s.pushed v).reg j = if j = 7 then s.reg 7 - 1 else s.reg j := by
  simp only [State.pushed, State.setMem_reg, State.setReg_reg, eq_comm]

@[simp] theorem State.pushed_sp : (s.pushed v).reg 7 = s.reg 7 - 1 := s.pushed_reg v 7

theorem State.pushed_read_same : (s.pushed v).mem.read (s.reg 7 - 1).toNat = v :=
  Memory.read_write_same _ _ _

theorem State.pushed_read_other {addr : Nat} (h : addr ≠ (s.reg 7 - 1).toNat) :
    (s.pushed v).mem.read addr = s.mem.read addr :=
  Memory.read_write_other _ _ h

end

/-! ### The operand of PUSH and the destination of POP -/

/-- Registers as PUSH reads its operand, SP already decremented (rule R142, decision D14). -/
theorem decSp_reg (s : State) (i : Fin 8) : (decSp s).reg i = if i = 7 then s.reg 7 - 1 else s.reg i := by
  simp only [decSp, State.setReg_reg, State.sp_eq, rSP, eq_comm]

theorem incSp_reg (s : State) (i : Fin 8) : (incSp s).reg i = if i = 7 then s.reg 7 + 1 else s.reg i := by
  simp only [incSp, State.setReg_reg, State.sp_eq, rSP, eq_comm]

theorem State.setReg_setReg_same (s : State) (i : Fin 8) (v w : Byte) :
    (s.setReg i v).setReg i w = s.setReg i w := by
  simp only [State.setReg, Vector.set_set]

/-- POP's destination written and then SP incremented: on R7 the increment is of the byte just written (rule R143,
decision D14). -/
theorem incSp_setReg (s : State) (i : Fin 8) (v : Byte) :
    incSp (s.setReg i v) =
      if i = 7 then s.setReg 7 (v + 1) else (s.setReg i v).setReg 7 (s.reg 7 + 1) := by
  split
  case isTrue hi =>
    subst hi
    rw [incSp, State.sp_eq, State.setReg_reg_same, State.setReg_setReg_same]
  case isFalse hi => rw [incSp, State.sp_eq, State.setReg_reg_other _ _ hi]

/-! ### PUSH -/

/-- PUSH decrements SP before it reads its operand, and then pushes and advances (rule R142). -/
theorem exec_push (a : Byte) (s : State) :
    exec (.push a) s = andThen (readReg a (decSp s)) fun v => andThen (push v s) (advance 1) := rfl

theorem exec_push_regByte (i : Fin 8) (s : State) :
    exec (.push (regByte i)) s =
      andThen (push (if i = 7 then s.reg 7 - 1 else s.reg i) s) (advance 1) := by
  rw [exec_push, readReg_regByte, andThen_next, decSp_reg]

/-- What a push and the advance after it answer. -/
theorem push_advance_eq_next {v : Byte} {n : Nat} {s t : State} :
    andThen (push v s) (advance n) = .next t ↔
      (s.reg 7 - 1).toNat < s.cfg.memSize ∧ s.pc.toNat + (n + 1) ≤ 0xFF ∧
        t = (s.pushed v).setPc (s.pc + BitVec.ofNat 8 (n + 1)) := by
  constructor
  · intro h
    obtain ⟨u, hu, h⟩ := andThen_eq_next.1 h
    obtain ⟨hsp, rfl⟩ := push_eq_next_pushed.1 hu
    exact ⟨hsp, advance_eq_next_add.1 h⟩
  · rintro ⟨hsp, h⟩
    exact andThen_eq_next.2 ⟨_, push_eq_next_pushed.2 ⟨hsp, rfl⟩, advance_eq_next_add.2 h⟩

/-- What PUSH of a register leaves. -/
theorem exec_push_in (i : Fin 8) {s : State} (hsp : (s.reg 7 - 1).toNat < s.cfg.memSize)
    (hpc : s.pc.toNat + 2 ≤ 255) :
    exec (.push (regByte i)) s =
      .next ((s.pushed (if i = 7 then s.reg 7 - 1 else s.reg i)).setPc (s.pc + 2)) := by
  rw [exec_push_regByte]
  exact push_advance_eq_next.2 ⟨hsp, hpc, rfl⟩

/-- Settles O15: PUSH of a register is a push and the advance, and both faults come after SP is decremented. -/
theorem pushStoresBelowSp : Obligations.PushStoresBelowSp := by
  refine ⟨fun _ _ => rfl, fun s i hsp hpc => exec_push_in i hsp hpc, fun s a ha => ?_, fun s i hsp => ?_⟩
  · rw [exec_push, readReg_bad ha, andThen_raise]
    exact raise_aborts (decSp_reg s 7)
  · rw [exec_push_regByte, push_out hsp, andThen_raise]
    exact raise_aborts (State.setReg_reg_same _ _ _)

/-! ### POP -/

/-- POP reads the byte at SP, writes its register, and then increments SP and advances (rule R143). -/
theorem exec_pop (a : Byte) (s : State) :
    exec (.pop a) s = andThen (memRead (s.reg 7).toNat s) fun v =>
      andThen (writeReg a v s) fun u => advance 1 (incSp u) := rfl

/-- What POP answers. -/
theorem exec_pop_eq_next {a : Byte} {s t : State} :
    exec (.pop a) s = .next t ↔ ∃ i : Fin 8, a.toNat = i.val ∧ (s.reg 7).toNat < s.cfg.memSize ∧
      s.pc.toNat + 2 ≤ 0xFF ∧ t = (incSp (s.setReg i (s.mem.read (s.reg 7).toNat))).setPc (s.pc + 2) := by
  rw [exec_pop]
  constructor
  · intro h
    obtain ⟨v, hv, h⟩ := andThen_eq_next.1 h
    obtain ⟨hsp, rfl⟩ := memRead_eq_next.1 hv
    obtain ⟨u, hu, h⟩ := andThen_eq_next.1 h
    obtain ⟨i, hi, rfl⟩ := writeReg_eq_next.1 hu
    exact ⟨i, hi, hsp, advance_eq_next_add.1 h⟩
  · rintro ⟨i, hi, hsp, h⟩
    rw [memRead_in hsp, andThen_next]
    exact andThen_eq_next.2 ⟨_, writeReg_eq_next.2 ⟨i, hi, rfl⟩, advance_eq_next_add.2 h⟩

/-- Settles O16: the result is what POP answers; the read at SP is the first to fault, then the index, both before SP
is incremented. -/
theorem popLoadsFromSp : Obligations.PopLoadsFromSp := by
  refine ⟨fun _ _ => rfl, fun s i hsp hpc => ?_, fun s a hsp => ?_, fun s a hsp ha => ?_⟩
  · rw [← incSp_setReg]
    exact exec_pop_eq_next.2 ⟨i, toNat_regByte i, hsp, hpc, rfl⟩
  · rw [exec_pop, memRead_out hsp, andThen_raise]
    exact raise_aborts rfl
  · rw [exec_pop, memRead_in hsp, andThen_next, writeReg_bad ha, andThen_raise]
    exact raise_aborts rfl

/-! ### CALL -/

theorem jumpTo_bad {a : Byte} {s : State} (h : 8 ≤ a.toNat) :
    jumpTo a s = raise (.invalidRegisterIndex a) s := by
  rw [jumpTo, readReg_bad h, andThen_raise]

/-- CALL pushes the address after it and then jumps (rule R150). -/
theorem exec_call (a : Byte) (s : State) :
    exec (.call a) s = andThen (push (s.pc + 2) s) (jumpTo a) := rfl

/-- CALL whose push is in range is the jump from the pushed state. -/
theorem exec_call_in (a : Byte) {s : State} (h : (s.reg 7 - 1).toNat < s.cfg.memSize) :
    exec (.call a) s = jumpTo a (s.pushed (s.pc + 2)) := by
  rw [exec_call, push_in h, andThen_next, State.pushed]

/-- What CALL answers: its target is read after the push (rule R150, decision D14). -/
theorem exec_call_eq_next {a : Byte} {s t : State} :
    exec (.call a) s = .next t ↔ ∃ i : Fin 8, a.toNat = i.val ∧ (s.reg 7 - 1).toNat < s.cfg.memSize ∧
      t = (s.pushed (s.pc + 2)).setPc (if i = 7 then s.reg 7 - 1 else s.reg i) := by
  simp only [← State.pushed_reg s (s.pc + 2)]
  constructor
  · intro h
    obtain ⟨u, hu, h⟩ := andThen_eq_next.1 h
    obtain ⟨hsp, rfl⟩ := push_eq_next_pushed.1 hu
    obtain ⟨i, hi, rfl⟩ := jumpTo_eq_next.1 h
    exact ⟨i, hi, hsp, rfl⟩
  · rintro ⟨i, hi, hsp, rfl⟩
    rw [exec_call_in a hsp]
    exact jumpTo_eq_next.2 ⟨i, hi, rfl⟩

/-- PUSH and CALL that complete leave the state after a push, with PC written. -/
theorem exec_pushCall_result {i : Instr} {a : Byte} {s t : State} (hi : i ∈ [Instr.push a, .call a])
    (h : exec i s = .next t) : ∃ v pc, t = (s.pushed v).setPc pc := by
  simp only [List.mem_cons, List.not_mem_nil, or_false] at hi
  rcases hi with rfl | rfl
  · obtain ⟨v, -, h⟩ := andThen_eq_next.1 h
    obtain ⟨-, -, rfl⟩ := push_advance_eq_next.1 h
    exact ⟨v, _, rfl⟩
  · obtain ⟨j, -, -, rfl⟩ := exec_call_eq_next.1 h
    exact ⟨_, _, rfl⟩

/-- Settles O31: the frame is that of the state after a push; CALL's push does not look at PC, and a bad index faults
in the jump after it. -/
theorem pushCallFrame : Obligations.PushCallFrame := by
  refine ⟨fun i a s t hi h => ?_, fun s i hsp => ?_, fun s a hsp ha => ?_⟩
  · obtain ⟨v, pc, rfl⟩ := exec_pushCall_result hi h
    refine ⟨s.pushed_sameRun v, rfl, rfl, s.pushed_sp v, fun j hj => ?_, fun addr haddr => ?_⟩
    · rw [State.setPc_reg, State.pushed_reg, if_neg hj]
    · rw [State.sp_eq, decSp_reg, if_pos rfl] at haddr
      exact s.pushed_read_other v haddr
  · exact ⟨_, exec_call_eq_next.2 ⟨i, toNat_regByte i, hsp, rfl⟩, s.pushed_read_same _, rfl⟩
  · rw [exec_call_in a hsp, jumpTo_bad ha]
    exact raise_aborts ⟨s.pushed_sp (s.pc + 2), s.pushed_read_same (s.pc + 2)⟩

/-! ### RET -/

/-- RET pops into PC (rule R151). -/
theorem exec_ret (s : State) : exec .ret s = andThen (pop s) fun p => .next (p.2.setPc p.1) := rfl

/-- What RET answers. -/
theorem exec_ret_eq_next {s t : State} :
    exec .ret s = .next t ↔ (s.reg 7).toNat < s.cfg.memSize ∧
      t = (s.setReg 7 (s.reg 7 + 1)).setPc (s.mem.read (s.reg 7).toNat) := by
  rw [exec_ret]
  constructor
  · intro h
    obtain ⟨⟨v, u⟩, hu, h⟩ := andThen_eq_next.1 h
    obtain ⟨hsp, rfl, rfl⟩ := pop_eq_next.1 hu
    exact ⟨hsp, (Host.Outcome.next.inj h).symm⟩
  · rintro ⟨hsp, rfl⟩
    rw [pop_in hsp, andThen_next]

/-- Settles O32: what POP and RET leave is the state with SP, PC and, for POP, one more register written. -/
theorem popRetFrame : Obligations.PopRetFrame := by
  refine ⟨fun a s t h => ?_, fun s t h => ?_⟩
  · obtain ⟨i, hi, -, -, rfl⟩ := exec_pop_eq_next.1 h
    refine ⟨⟨⟨rfl, rfl, rfl, rfl⟩, rfl, rfl⟩, rfl, rfl, fun j hj hja => ?_, fun _ => rfl⟩
    have hij : i ≠ j := fun e => hja (e ▸ hi.symm)
    rw [State.setPc_reg, incSp_reg, if_neg hj, State.setReg_reg_other _ _ hij]
  · obtain ⟨-, rfl⟩ := exec_ret_eq_next.1 h
    refine ⟨⟨⟨rfl, rfl, rfl, rfl⟩, rfl, rfl⟩, rfl, rfl, fun j hj => ?_, fun _ => rfl⟩
    rw [State.setPc_reg, State.setReg_reg_other _ _ hj.symm]

/-! ### Pushes and then pops -/

/-- The `n` bytes from SP upwards, addresses modulo 256 (rule R145). -/
def State.stackBytes (s : State) (n : Nat) : List Byte :=
  (List.range n).map fun k => s.mem.read (s.reg 7 + BitVec.ofNat 8 k).toNat

/-- Above the SP that a pop leaves, one step less. -/
theorem popped_sp_add (s : State) (k : Nat) :
    (s.setReg 7 (s.reg 7 + 1)).reg 7 + BitVec.ofNat 8 k = s.reg 7 + BitVec.ofNat 8 (k + 1) := by
  rw [State.setReg_reg_same, add_ofNat_succ]

/-- One byte and then those above it, as a pop leaves them. -/
theorem State.stackBytes_succ (s : State) (n : Nat) :
    s.stackBytes (n + 1) = s.mem.read (s.reg 7).toNat :: (s.setReg 7 (s.reg 7 + 1)).stackBytes n := by
  simp only [State.stackBytes, popped_sp_add, State.setReg_mem, List.range_succ_eq_map, List.map_cons, List.map_map,
    Function.comp_def, Nat.succ_eq_add_one, BitVec.add_zero]

/-- Pops whose addresses are all in range give the bytes from SP upwards and leave SP above them. -/
theorem popMany_in {n : Nat} {s : State}
    (hr : ∀ k < n, (s.reg 7 + BitVec.ofNat 8 k).toNat < s.cfg.memSize) :
    ∃ u, popMany n s = .next (s.stackBytes n, u) ∧ u.reg 7 = s.reg 7 + BitVec.ofNat 8 n := by
  induction n generalizing s with
  | zero => exact ⟨s, rfl, (BitVec.add_zero _).symm⟩
  | succ n ih =>
    have h0 : (s.reg 7).toNat < s.cfg.memSize := by simpa using hr 0 (Nat.succ_pos n)
    obtain ⟨u, hu, hsp⟩ := ih (s := s.setReg 7 (s.reg 7 + 1)) fun k hk => by
      rw [popped_sp_add]
      exact hr (k + 1) (Nat.succ_lt_succ hk)
    refine ⟨u, ?_, hsp.trans (popped_sp_add s n)⟩
    rw [popMany, pop_in h0, andThen_next, hu, andThen_next, State.stackBytes_succ]

/-- `k` steps up from `n` steps down are `n - k` steps down. -/
theorem sub_ofNat_add_ofNat (x : Byte) {n k : Nat} (h : k ≤ n) :
    x - BitVec.ofNat 8 n + BitVec.ofNat 8 k = x - BitVec.ofNat 8 (n - k) := by
  obtain ⟨m, rfl⟩ := Nat.exists_eq_add_of_le' h
  rw [BitVec.ofNat_add, ← BitVec.sub_sub, BitVec.sub_add_cancel, Nat.add_sub_cancel]

/-- Below an SP that pushes have passed stand their bytes, the last one lowest. -/
theorem pushAll_stackBytes {vs : List Byte} {s t : State} (hsp : t.reg 7 = s.reg 7 - BitVec.ofNat 8 vs.length)
    (hv : ∀ k (hk : k < vs.length), t.mem.read (s.reg 7 - BitVec.ofNat 8 (k + 1)).toNat = vs[k]) :
    t.stackBytes vs.length = vs.reverse := by
  refine List.ext_getElem (by simp [State.stackBytes]) fun k _ hk => ?_
  rw [List.length_reverse] at hk
  have hcell : vs.length - k = vs.length - 1 - k + 1 := by omega
  simp only [State.stackBytes, List.getElem_map, List.getElem_range, List.getElem_reverse]
  rw [hsp, sub_ofNat_add_ofNat _ hk.le, hcell, hv]

/-- A POP that finds the byte PUSH stored, at the SP that PUSH left, restores the register and SP; on R7 the byte is
the decremented SP, which the increment restores (rule R144). -/
theorem incSp_setReg_restores {s t : State} (i : Fin 8) (hsp : t.reg 7 = s.reg 7 - 1) :
    (incSp (t.setReg i (if i = 7 then s.reg 7 - 1 else s.reg i))).reg i = s.reg i ∧
      (incSp (t.setReg i (if i = 7 then s.reg 7 - 1 else s.reg i))).reg 7 = s.reg 7 := by
  have hback : s.reg 7 - 1 + 1 = s.reg 7 := BitVec.sub_add_cancel _ _
  by_cases hi : i = 7
  · subst hi
    simp only [incSp_reg, State.setReg_reg_same, if_true, hback, and_self]
  · simp only [incSp_reg, State.setReg_reg_same, State.setReg_reg_other _ _ hi, if_neg hi, if_true, hsp, hback,
      and_self]

/-- PUSH and then POP on one register, R7 included, keep it and SP: the cell written is the one read. -/
theorem push_then_pop_restores {s : State} (i : Fin 8) (hsp : (s.reg 7 - 1).toNat < s.cfg.memSize)
    (hpc : s.pc.toNat + 4 ≤ 255) :
    ∃ t u : State, exec (.push (regByte i)) s = .next t ∧ exec (.pop (regByte i)) t = .next u ∧
      u.reg i = s.reg i ∧ u.reg 7 = s.reg 7 := by
  have hpc' : (s.pc + 2).toNat + 2 ≤ 255 := by
    have hadd : (s.pc + 2).toNat = s.pc.toNat + 2 := by bv_omega
    omega
  refine ⟨_, _, exec_push_in i hsp (by omega), exec_pop_eq_next.2 ⟨i, toNat_regByte i, ?_, hpc', rfl⟩, ?_⟩
  · rw [State.setPc_reg, State.pushed_sp]
    exact hsp
  · simp only [State.setPc_reg, State.setPc_mem, State.pushed_sp, State.pushed_read_same]
    exact incSp_setReg_restores i (by rw [State.setPc_reg, State.pushed_sp])

/-- Settles O41: one register by `push_then_pop_restores`; `n` pushes leave their bytes below the old SP in the order
in which `n` pops read them. -/
theorem pushesThenPopsRestore : Obligations.PushesThenPopsRestore := by
  refine ⟨fun s i hsp hpc => push_then_pop_restores i hsp hpc, fun s vs hlen hr => ?_⟩
  obtain ⟨t, ht, hv, -⟩ := pushAll_in hlen hr
  obtain ⟨⟨⟨hcfg, -⟩, -⟩, -, -, -, -, hsp, -⟩ := pushAll_frame ht
  have hup : ∀ k ≤ vs.length, t.reg 7 + BitVec.ofNat 8 k = s.reg 7 - BitVec.ofNat 8 (vs.length - k) :=
    fun k hk => by rw [hsp, sub_ofNat_add_ofNat _ hk]
  obtain ⟨u, hu, husp⟩ := popMany_in (n := vs.length) (s := t) fun k hk => by
    rw [hup k hk.le, hcfg]
    exact hr (vs.length - k) (by omega) (by omega)
  refine ⟨t, u, ht, ?_, ?_⟩
  · rw [hu, pushAll_stackBytes hsp hv]
  · rw [husp, hup _ le_rfl, Nat.sub_self]
    exact BitVec.sub_zero _

end Sys2Proof.Machine

/-! ### Control transfer

JMP, JEQ and JNE are the jump or the advance, each case said once. CALL and RET are read off what they answer, which
the stack part says. -/

namespace Sys2Proof.Machine

/-! ### The jump -/

/-- A jump to a named register writes PC and nothing else (rule R152). -/
@[simp] theorem jumpTo_regByte (i : Fin 8) (s : State) : jumpTo (regByte i) s = .next (s.setPc (s.reg i)) :=
  jumpTo_eq_next.2 ⟨i, toNat_regByte i, rfl⟩

/-- A jump to a bad index faults, and nothing but the run state has changed (rule R183). -/
theorem jumpTo_aborts {a : Byte} {s : State} {leaves : State → Prop} (ha : 8 ≤ a.toNat)
    (h : leaves (s.setRun .faulted)) : Aborts (jumpTo a s) (.invalidRegisterIndex a) leaves := by
  rw [jumpTo_bad ha]
  exact raise_aborts h

/-! ### Which of jump and advance an instruction is -/

theorem exec_jmp (a : Byte) (s : State) : exec (.jmp a) s = jumpTo a s := rfl

section
variable (a : Byte) {s : State}

/-- JEQ is taken on bit 0 of FL set (rule R153). -/
theorem exec_jeq_taken (h : s.fl.getLsbD 0 = true) : exec (.jeq a) s = jumpTo a s := if_pos h

/-- An untaken JEQ does not look at its operand (decision D13). -/
theorem exec_jeq_untaken (h : s.fl.getLsbD 0 = false) : exec (.jeq a) s = advance 1 s :=
  if_neg (Bool.not_eq_true _ ▸ h)

/-- JNE is taken on bit 0 of FL clear (rule R154). -/
theorem exec_jne_taken (h : s.fl.getLsbD 0 = false) : exec (.jne a) s = jumpTo a s := if_pos h

/-- An untaken JNE does not look at its operand (decision D13). -/
theorem exec_jne_untaken (h : s.fl.getLsbD 0 = true) : exec (.jne a) s = advance 1 s :=
  if_neg (Bool.not_eq_false _ ▸ h)

end

/-- JMP, JEQ and JNE are on every state the jump or the advance. -/
theorem exec_jump_cases {i : Instr} {a : Byte} (hi : i ∈ [Instr.jmp a, .jeq a, .jne a]) (s : State) :
    exec i s = jumpTo a s ∨ exec i s = advance 1 s := by
  simp only [List.mem_cons, List.not_mem_nil, or_false] at hi
  rcases hi with rfl | rfl | rfl
  · exact .inl (exec_jmp a s)
  · cases he : s.fl.getLsbD 0 with
    | true => exact .inl (exec_jeq_taken a he)
    | false => exact .inr (exec_jeq_untaken a he)
  · cases he : s.fl.getLsbD 0 with
    | true => exact .inr (exec_jne_untaken a he)
    | false => exact .inl (exec_jne_taken a he)

/-- A JMP, JEQ or JNE that completes leaves the state with PC written. -/
theorem exec_jump_result {i : Instr} {a : Byte} {s t : State} (hi : i ∈ [Instr.jmp a, .jeq a, .jne a])
    (h : exec i s = .next t) : ∃ pc, t = s.setPc pc := by
  rcases exec_jump_cases hi s with e | e <;> rw [e] at h
  · obtain ⟨j, -, rfl⟩ := jumpTo_eq_next.1 h
    exact ⟨_, rfl⟩
  · obtain ⟨-, rfl⟩ := advance_eq_next.1 h
    exact ⟨_, rfl⟩

/-! ### JMP, JEQ and JNE -/

/-- Settles O19: JMP is the jump. -/
theorem jmpGoesToTheRegister : Obligations.JmpGoesToTheRegister :=
  ⟨fun _ _ => rfl, fun s i => jumpTo_regByte i s, fun _ _ ha => jumpTo_aborts ha rfl⟩

/-- Settles O20: the jump where it is taken, faults included, and the advance where it is not. -/
theorem jeqJumpsOnEqual : Obligations.JeqJumpsOnEqual := by
  refine ⟨fun _ _ => rfl, fun s i he => ?_, fun s a he hpc => ?_, fun s a he ha => ?_⟩
  · rw [exec_jeq_taken _ he, jumpTo_regByte]
  · rw [exec_jeq_untaken _ he]
    exact advance_eq_next_add.2 ⟨hpc, rfl⟩
  · rw [exec_jeq_taken _ he]
    exact jumpTo_aborts ha trivial

/-- Settles O21: as JEQ, on bit 0 of FL clear. -/
theorem jneJumpsOnNotEqual : Obligations.JneJumpsOnNotEqual := by
  refine ⟨fun _ _ => rfl, fun s i he => ?_, fun s a he hpc => ?_, fun s a he ha => ?_⟩
  · rw [exec_jne_taken _ he, jumpTo_regByte]
  · rw [exec_jne_untaken _ he]
    exact advance_eq_next_add.2 ⟨hpc, rfl⟩
  · rw [exec_jne_taken _ he]
    exact jumpTo_aborts ha trivial

/-- Settles O28: taken or not, PC is the one thing written. -/
theorem jumpFrame : Obligations.JumpFrame := by
  intro i a s t hi h
  obtain ⟨pc, rfl⟩ := exec_jump_result hi h
  exact ⟨⟨⟨rfl, rfl, rfl, rfl⟩, rfl, rfl⟩, rfl, rfl, fun _ => rfl, fun _ => rfl⟩

/-! ### CALL and RET -/

/-- Settles O17: the result is what CALL answers; the push is the first to fault, and a bad index faults after it,
at every PC, as `pushCallFrame` says. -/
theorem callPushesTheReturnAddress : Obligations.CallPushesTheReturnAddress := by
  obtain ⟨-, -, hbad⟩ := pushCallFrame
  refine ⟨fun _ _ => rfl, fun s i hsp _ => ?_, fun s a hsp => ?_, fun s a hsp _ ha => hbad s a hsp ha⟩
  · exact exec_call_eq_next.2 ⟨i, toNat_regByte i, hsp, rfl⟩
  · rw [exec_call, push_out hsp, andThen_raise]
    exact raise_aborts trivial

/-- Settles O18: the result is what RET answers, and its pop is all that can fault. -/
theorem retPopsThePc : Obligations.RetPopsThePc := by
  refine ⟨fun _ => rfl, fun s hsp => exec_ret_eq_next.2 ⟨hsp, rfl⟩, fun s hsp => ?_⟩
  rw [exec_ret, pop_out hsp, andThen_raise]
  exact raise_aborts trivial

/-- Settles O42: at the SP that CALL left, in range because its push was, RET reads the cell that CALL wrote, and its
increment of SP undoes CALL's decrement. -/
theorem retReturnsAfterTheCall : Obligations.RetReturnsAfterTheCall := by
  intro s t u i hpc hcall hcfg hsp hcell
  obtain ⟨j, -, hin, rfl⟩ := exec_call_eq_next.1 hcall
  rw [State.setPc_reg, State.pushed_sp] at hsp hcell
  have hret : u.mem.read (s.reg 7 - 1).toNat = s.pc + 2 := hcell.trans (s.pushed_read_same _)
  have hu : (u.reg 7).toNat < u.cfg.memSize := by
    rw [hsp, hcfg]
    exact hin
  refine ⟨_, exec_ret_eq_next.2 ⟨hu, rfl⟩, ?_, ?_⟩
  · rw [State.setPc_pc, hsp, hret]
    bv_omega
  · rw [State.setPc_reg, State.setReg_reg_same, hsp]
    exact BitVec.sub_add_cancel _ _

end Sys2Proof.Machine

/-! ### Output, interrupt return and halt

PRN and PRA share their handler but for the event, so it is said once. IRET is seven pops into registers and two more
for FL and PC, and HLT is `Halt()` and the advance. -/

namespace Sys2Proof.Machine

/-! ### PRN and PRA -/

section
variable {a : Byte} {event : Byte → Event} {s t : State}

/-- What reading a register, emitting an event of its byte and advancing answers. -/
theorem readReg_emit_advance_eq_next :
    (andThen (readReg a s) fun v => advance 1 (s.emit (event v))) = .next t ↔
      ∃ i : Fin 8, a.toNat = i.val ∧ s.pc.toNat + 2 ≤ 0xFF ∧
        t = (s.emit (event (s.reg i))).setPc (s.pc + 2) := by
  constructor
  · intro h
    obtain ⟨v, hv, h⟩ := andThen_eq_next.1 h
    obtain ⟨i, hi, rfl⟩ := readReg_eq_next.1 hv
    exact ⟨i, hi, advance_eq_next_add.1 h⟩
  · rintro ⟨i, hi, h⟩
    exact andThen_eq_next.2 ⟨s.reg i, readReg_eq_next.2 ⟨i, hi, rfl⟩, advance_eq_next_add.2 h⟩

/-- A handler that begins by reading a bad index faults there, and nothing but the run state has changed (rule
R183). -/
theorem readReg_aborts {α : Type} {f : Byte → Res α} {leaves : State → Prop} (ha : 8 ≤ a.toNat)
    (h : leaves (s.setRun .faulted)) : Aborts (andThen (readReg a s) f) (.invalidRegisterIndex a) leaves := by
  rw [readReg_bad ha, andThen_raise]
  exact raise_aborts h

end

/-- PRN reads its register, and then emits the number and advances (rule R165). -/
theorem exec_prn (a : Byte) (s : State) :
    exec (.prn a) s = andThen (readReg a s) fun v => advance 1 (s.emit (.prn v)) := rfl

/-- PRA reads its register, and then emits the character and advances (rule R166). -/
theorem exec_pra (a : Byte) (s : State) :
    exec (.pra a) s = andThen (readReg a s) fun v => advance 1 (s.emit (.pra v)) := rfl

/-- The printable codes have a character (rule R166). -/
theorem asciiChar_printable {c : Byte} (hlow : 32 ≤ c.toNat) (hhigh : c.toNat ≤ 126) :
    asciiChar c = some (Char.ofNat c.toNat) := if_pos ⟨hlow, hhigh⟩

/-- Settles O22: the common handler with a `Prn` event, whose text no `OUT_RENDER` touches; a bad index faults before
the emission. -/
theorem prnEmitsTheDecimalValue : Obligations.PrnEmitsTheDecimalValue := by
  refine ⟨fun o a hlegal => ?_, fun s i hpc => ?_, fun _ _ => rfl, fun s a ha => ?_⟩
  · obtain ⟨-, -, -, -, hprn, -⟩ := hlegal
    exact congrArg (· :: [a]) hprn
  · rw [exec_prn]
    exact readReg_emit_advance_eq_next.2 ⟨i, toNat_regByte i, hpc, rfl⟩
  · rw [exec_prn]
    exact readReg_aborts ha rfl

/-- Settles O23: as PRN, with a `Pra` event, whose text at a printable code is that code's character. -/
theorem praEmitsTheCharacter : Obligations.PraEmitsTheCharacter := by
  refine ⟨fun _ _ => rfl, fun s i hpc => ?_, fun r c hlow hhigh => ?_, fun s a ha => ?_⟩
  · rw [exec_pra]
    exact readReg_emit_advance_eq_next.2 ⟨i, toNat_regByte i, hpc, rfl⟩
  · rw [Event.text, asciiChar_printable hlow hhigh, Option.elim_some]
  · rw [exec_pra]
    exact readReg_aborts ha rfl

/-- A PRN or PRA that completes leaves the state with one more event and PC written. -/
theorem exec_output_result {i : Instr} {a : Byte} {s t : State} (hi : i ∈ [Instr.prn a, .pra a])
    (h : exec i s = .next t) : ∃ e pc, t = (s.emit e).setPc pc := by
  simp only [List.mem_cons, List.not_mem_nil, or_false] at hi
  rcases hi with rfl | rfl <;>
  · obtain ⟨j, -, -, rfl⟩ := readReg_emit_advance_eq_next.1 h
    exact ⟨_, _, rfl⟩

/-- Settles O29: the output list and PC are the two things written. -/
theorem outputFrame : Obligations.OutputFrame := by
  intro i a s t hi h
  obtain ⟨e, pc, rfl⟩ := exec_output_result hi h
  exact ⟨⟨⟨rfl, rfl, rfl, rfl⟩, rfl, rfl⟩, rfl, ⟨e, rfl⟩, fun _ => rfl, fun _ => rfl⟩

/-! ### IRET -/

/-- The registers that an interrupt return pops, in the order popped (rule R167). -/
def returnRegisters : List (Fin 8) := [6, 5, 4, 3, 2, 1, 0]

theorem sp_not_mem_returnRegisters : 7 ∉ returnRegisters := by decide

/-- IRET pops the registers, then FL, then PC, and sets IM (rule R167). -/
theorem exec_iret (s : State) :
    exec .iret s = andThen (popInto returnRegisters s) fun u => andThen (pop u) fun f =>
      andThen (pop (f.2.setFl f.1)) fun p => .next ((p.2.setPc p.1).setReg 5 1) := rfl

/-- The state that IRET leaves, from the one after its register pops: FL and PC from the frame's last two cells, SP
above them, IM 1 (rule R167). -/
def State.returned (s u : State) : State :=
  (((u.setReg 7 (s.reg 7 + 9)).setFl (s.mem.read (s.reg 7 + 7).toNat)).setPc
    (s.mem.read (s.reg 7 + 8).toNat)).setReg 5 1

/-- The registers after IRET are the popped ones, but for IM and SP. -/
theorem State.returned_reg (s u : State) (j : Fin 8) :
    (s.returned u).reg j = if j = 5 then 1 else if j = 7 then s.reg 7 + 9 else u.reg j := by
  simp only [State.returned, State.setReg_reg, State.setPc_reg, State.setFl_reg, eq_comm]

section
variable {s u : State} (hu : popInto returnRegisters s = .next u)
include hu

/-- After its seven register pops IRET has the configuration and the memory it began with, and SP is seven higher. -/
theorem popInto_returnRegisters_frame : u.cfg = s.cfg ∧ u.mem = s.mem ∧ u.reg 7 = s.reg 7 + 7 := by
  obtain ⟨⟨⟨hcfg, -⟩, -⟩, -, -, -, hmem, -⟩ := popInto_frame hu
  exact ⟨hcfg, hmem, popInto_sp hu sp_not_mem_returnRegisters⟩

/-- With the registers popped, the pop of FL is the next to fault. -/
theorem exec_iret_fl_out (h7 : s.cfg.memSize ≤ (s.reg 7 + 7).toNat) :
    exec .iret s = raise (.outOfBoundsAccess (s.reg 7 + 7).toNat) u := by
  obtain ⟨hcfg, -, hsp⟩ := popInto_returnRegisters_frame hu
  rw [← hcfg, ← hsp] at h7
  rw [exec_iret, hu, andThen_next, pop_out h7, andThen_raise, hsp]

variable (h7 : (s.reg 7 + 7).toNat < s.cfg.memSize)
include h7

/-- With FL popped too, what is left of IRET is the pop of PC from one cell higher. -/
theorem exec_iret_fl_in :
    exec .iret s =
      andThen (pop ((u.setReg 7 (s.reg 7 + 8)).setFl (s.mem.read (s.reg 7 + 7).toNat))) fun p =>
        .next ((p.2.setPc p.1).setReg 5 1) := by
  obtain ⟨hcfg, hmem, hsp⟩ := popInto_returnRegisters_frame hu
  have hnext : s.reg 7 + 7 + 1 = s.reg 7 + 8 := BitVec.add_assoc _ _ _
  rw [← hcfg, ← hsp] at h7
  rw [exec_iret, hu, andThen_next, pop_in h7, andThen_next, hsp, hmem, hnext]

/-- With FL popped, the pop of PC is the last that can fault. -/
theorem exec_iret_pc_out (h8 : s.cfg.memSize ≤ (s.reg 7 + 8).toNat) :
    exec .iret s = raise (.outOfBoundsAccess (s.reg 7 + 8).toNat)
      ((u.setReg 7 (s.reg 7 + 8)).setFl (s.mem.read (s.reg 7 + 7).toNat)) := by
  obtain ⟨hcfg, -, -⟩ := popInto_returnRegisters_frame hu
  rw [exec_iret_fl_in hu h7, pop_out, andThen_raise, State.setFl_reg, State.setReg_reg_same]
  rwa [State.setFl_reg, State.setReg_reg_same, State.setFl_cfg, State.setReg_cfg, hcfg]

/-- With FL and PC in range, IRET completes. -/
theorem exec_iret_in (h8 : (s.reg 7 + 8).toNat < s.cfg.memSize) :
    exec .iret s = .next (s.returned u) := by
  obtain ⟨hcfg, hmem, -⟩ := popInto_returnRegisters_frame hu
  have hnext : s.reg 7 + 8 + 1 = s.reg 7 + 9 := BitVec.add_assoc _ _ _
  have hsp : ((u.setReg 7 (s.reg 7 + 8)).setFl (s.mem.read (s.reg 7 + 7).toNat)).reg 7 = s.reg 7 + 8 :=
    State.setReg_reg_same _ _ _
  have hfl (v w x : Byte) : ((u.setReg 7 v).setFl w).setReg 7 x = (u.setReg 7 x).setFl w :=
    congrArg (State.setFl · w) (State.setReg_setReg_same u 7 v x)
  rw [exec_iret_fl_in hu h7, pop_in, andThen_next, hsp, hnext, hfl, State.setFl_mem, State.setReg_mem, hmem,
    State.returned]
  rwa [hsp, State.setFl_cfg, State.setReg_cfg, hcfg]

end

/-- The first pop of IRET whose address is out of range is the one it faults with. -/
theorem exec_iret_first_out {s : State} (k : Fin 9)
    (hout : s.cfg.memSize ≤ (s.reg 7 + BitVec.ofNat 8 k.val).toNat)
    (hin : ∀ j : Fin 9, j < k → (s.reg 7 + BitVec.ofNat 8 j.val).toNat < s.cfg.memSize) :
    ∃ u, exec .iret s = raise (.outOfBoundsAccess (s.reg 7 + BitVec.ofNat 8 k.val).toNat) u := by
  have hpops (n : Nat) (hn : n < 9) (hnk : n < k.val) : (s.reg 7 + BitVec.ofNat 8 n).toNat < s.cfg.memSize :=
    hin ⟨n, hn⟩ hnk
  by_cases hk : k.val < 7
  · obtain ⟨u, hu⟩ := popInto_fault sp_not_mem_returnRegisters (k := k.val) hk hout
      fun j hj => hpops j (by omega) hj
    exact ⟨u, by rw [exec_iret, hu, andThen_raise]⟩
  · obtain ⟨u, hu, -⟩ := popInto_in (s := s) sp_not_mem_returnRegisters (by decide)
      fun j (hj : j < 7) => hpops j (by omega) (by omega)
    obtain rfl | rfl : k = 7 ∨ k = 8 := by omega
    · exact ⟨u, exec_iret_fl_out hu hout⟩
    · exact ⟨_, exec_iret_pc_out hu (hpops 7 (by decide) (by decide)) hout⟩

/-- Register `j` is popped after the `6 - j` registers above it. -/
theorem returnRegisters_getElem? : ∀ j : Fin 8, j ≠ 7 → returnRegisters[6 - j.val]? = some j := by decide

/-- When its nine pops are in range IRET completes, and each register but IM and SP holds its cell of the frame, R6 the
lowest. -/
theorem exec_iret_completes {s : State}
    (h : ∀ k : Fin 9, (s.reg 7 + BitVec.ofNat 8 k.val).toNat < s.cfg.memSize) :
    ∃ u, exec .iret s = .next (s.returned u) ∧ ∀ j : Fin 8, j ≠ 5 → j ≠ 7 →
      (s.returned u).reg j = s.mem.read (s.reg 7 + BitVec.ofNat 8 (6 - j.val)).toNat := by
  obtain ⟨u, hu, hcells⟩ := popInto_in (s := s) sp_not_mem_returnRegisters (by decide)
    fun k (hk : k < 7) => h ⟨k, by omega⟩
  refine ⟨u, exec_iret_in hu (h 7) (h 8), fun j him hsp => ?_⟩
  obtain ⟨hlt, hj⟩ := List.getElem?_eq_some_iff.1 (returnRegisters_getElem? j hsp)
  have hcell := hcells (6 - j.val) hlt
  rw [hj] at hcell
  rw [State.returned_reg, if_neg him, if_neg hsp, hcell]

/-- Settles O24: in range the nine pops are the frame's cells in order; otherwise the first pop out of range
faults. -/
theorem iretRestoresFromTheFrame : Obligations.IretRestoresFromTheFrame := by
  refine ⟨fun _ => rfl, fun s h => ?_, fun s k hout hin => ?_⟩
  · obtain ⟨u, ht, hcell⟩ := exec_iret_completes h
    obtain ⟨hrun, hout, hmem, him⟩ := interruptReturn_frame ht
    have hfirst : (s.returned u).reg 6 = s.mem.read (s.reg 7).toNat := by
      simpa using hcell 6 (by decide) (by decide)
    exact ⟨_, ht, hfirst, him, hcell 4 (by decide) (by decide), hcell 3 (by decide) (by decide),
      hcell 2 (by decide) (by decide), hcell 1 (by decide) (by decide), hcell 0 (by decide) (by decide), rfl, rfl,
      s.returned_reg u 7, hmem, hout, hrun⟩
  · obtain ⟨u, hu⟩ := exec_iret_first_out k hout hin
    rw [hu]
    exact raise_aborts trivial

theorem pop_sp {v : Byte} {s t : State} (h : pop s = .next (v, t)) : t.reg 7 = s.reg 7 + 1 := by
  obtain ⟨-, -, rfl⟩ := pop_eq_next.1 h
  exact State.setReg_reg_same _ _ _

/-- The nine pops of an IRET that completes leave SP nine higher. -/
theorem exec_iret_sp {s t : State} (h : exec .iret s = .next t) : t.reg 7 = s.reg 7 + 9 := by
  obtain ⟨u, hu, h⟩ := andThen_eq_next.1 h
  obtain ⟨⟨f, w⟩, hw, h⟩ := andThen_eq_next.1 h
  obtain ⟨⟨p, x⟩, hx, h⟩ := andThen_eq_next.1 h
  obtain ⟨-, -, hsp⟩ := popInto_returnRegisters_frame hu
  cases h
  calc ((x.setPc p).setReg 5 1).reg 7 = x.reg 7 := State.setReg_reg_other _ _ (by decide)
    _ = w.reg 7 + 1 := pop_sp (s := w.setFl f) hx
    _ = s.reg 7 + 7 + 1 + 1 := by rw [pop_sp hw, hsp]
    _ = s.reg 7 + 9 := by rw [BitVec.add_assoc, BitVec.add_assoc]; rfl

/-- Settles O33: the frame of the interrupt return, and SP above the nine cells it popped. -/
theorem iretFrame : Obligations.IretFrame := by
  intro s t h
  obtain ⟨hrun, hout, hmem, -⟩ := interruptReturn_frame h
  exact ⟨hrun, hout, exec_iret_sp h, fun addr => congrArg (·.read addr) hmem⟩

/-! ### HLT -/

/-- HLT is `Halt()` and the generic advance (rule R168). -/
theorem exec_hlt (s : State) : exec .hlt s = advance 0 (halt s) := rfl

/-- What HLT answers, in any run state: `Halt()` does not move PC. -/
theorem exec_hlt_eq_next {s t : State} :
    exec .hlt s = .next t ↔ s.pc.toNat + 1 ≤ 0xFF ∧ t = (halt s).setPc (s.pc + 1) := by
  obtain ⟨-, -, hpc, -⟩ := halt_frame s
  rw [exec_hlt, advance_eq_next_add, hpc]
  rfl

/-- A machine that has been started and runs no more has no move (rules R9, R236). -/
theorem perform_stopped (handler : Instr → State → Res State) (m : Move) {s : State} (hidle : s.run ≠ .idle)
    (hrunning : s.run ≠ .running) : perform handler m s = .fault (.noStep m s.run) := by
  cases m with
  | tick | timer => exact if_neg hrunning
  | poke | registerHalt | start => exact if_neg hidle

/-- A HALTED machine has no step, whatever its schedule (rule R236). -/
theorem step_halted {s : State} (h : s.run = .halted) :
    ∃ m : Move, Sys2Proof.Machine.step s = .fault (.noStep m .halted) := by
  have hrun : (s.setMoves s.moves.tail).run = .halted := h
  refine ⟨s.moves.head?.getD (defaultMove s.run), ?_⟩
  rw [step_eq_perform, perform_stopped exec _ (by simp [h]) (by simp [h]), hrun]

/-- Settles O25: on a RUNNING machine `Halt()` has its effect, which the advance keeps, and a HALTED machine has no
step. -/
theorem hltHaltsAndAdvances : Obligations.HltHaltsAndAdvances := by
  refine ⟨fun o hlegal => ?_, fun s hr hpc => ?_, fun s t hr h => ?_⟩
  · obtain ⟨-, -, -, -, -, hhlt⟩ := hlegal
    exact congrArg (· :: []) hhlt
  · rw [← halt_running hr]
    exact exec_hlt_eq_next.2 ⟨hpc, rfl⟩
  · obtain ⟨-, rfl⟩ := exec_hlt_eq_next.1 h
    rw [halt_running hr]
    exact step_halted rfl

/-- Settles O34: what `Halt()` leaves unchanged, with PC written. -/
theorem hltFrame : Obligations.HltFrame := by
  intro s t h
  obtain ⟨-, rfl⟩ := exec_hlt_eq_next.1 h
  obtain ⟨hsur, hregs, -, hfl, hmem, hout⟩ := halt_frame s
  exact ⟨hsur, hfl, hout, fun j => congrArg (·.get j) hregs, fun addr => congrArg (·.read addr) hmem⟩

end Sys2Proof.Machine

/-! ### Interrupts, the timer and stopping

The selection of a source, the interrupt entry with the frame it saves (`State.savedFrame`) and the return that finds
it, the timer's step, `Halt()`, and the watchdog's bound on every run. -/

namespace Sys2Proof.Machine

/-! ### The watchdog's bound -/

/-- The steps that a machine can make without counting a cycle: its listed moves that are not ticks, and the start
that an empty schedule gives an IDLE machine. -/
def State.uncountedSteps (s : State) : Nat :=
  (s.moves.filter fun m => decide (m ≠ .tick)).length + if s.run = .idle then 1 else 0

/-- Only a tick counts a cycle, and no move takes a machine back to IDLE or leaves it there by a start. -/
theorem perform_count {m : Move} {s t : State} (h : perform exec m s = .next t) :
    t.cfg = s.cfg ∧ t.moves = s.moves ∧ (m = .tick → t.cycles = s.cycles + 1) ∧ (m ≠ .tick → t.cycles = s.cycles) ∧
      (t.run = .idle → s.run = .idle ∧ m ≠ .start) := by
  cases m with
  | tick =>
    obtain ⟨hr, h⟩ := onlyIn_eq_next.1 h
    obtain ⟨⟨⟨hcfg, hcyc, -, hmov⟩, -, -, hclk⟩, -⟩ := cycleWith_effect h
    refine ⟨hcfg, hmov, fun _ => hcyc, fun hne => absurd rfl hne, fun hidle => ?_⟩
    rcases hclk with ⟨ht, -⟩ | ⟨-, ht, -⟩
    · exact ⟨ht.symm.trans hidle, nofun⟩
    · cases ht.symm.trans hidle
  | timer =>
    obtain ⟨-, h⟩ := onlyIn_eq_next.1 h
    cases h
    exact ⟨rfl, rfl, nofun, fun _ => rfl, fun hidle => ⟨hidle, nofun⟩⟩
  | poke addr v =>
    obtain ⟨hi, h⟩ := onlyIn_eq_next.1 h
    obtain ⟨-, rfl⟩ := memWrite_eq_next.1 h
    exact ⟨rfl, rfl, nofun, fun _ => rfl, fun _ => ⟨hi, nofun⟩⟩
  | registerHalt k =>
    obtain ⟨hi, h⟩ := onlyIn_eq_next.1 h
    cases h
    exact ⟨rfl, rfl, nofun, fun _ => rfl, fun _ => ⟨hi, nofun⟩⟩
  | start =>
    obtain ⟨-, h⟩ := onlyIn_eq_next.1 h
    obtain ⟨-, rfl⟩ := startClock_eq_next.1 h
    exact ⟨rfl, rfl, nofun, fun _ => rfl, nofun⟩

/-- Every step counts a cycle or uses up one of the uncounted steps: a listed move that is not a tick, or the start of
an IDLE machine with none listed. -/
theorem step_count {s t : State} (h : step s = .next t) :
    t.cfg = s.cfg ∧ s.cycles + 1 + t.uncountedSteps ≤ t.cycles + s.uncountedSteps := by
  rw [step_eq_perform] at h
  obtain ⟨hcfg, hmov, htick, hother, hidle⟩ := perform_count h
  refine ⟨hcfg, ?_⟩
  simp only [State.setMoves_moves, State.setMoves_cycles, State.setMoves_run] at hmov htick hother hidle
  have hstart : (if t.run = .idle then 1 else 0) ≤ if s.run = .idle then 1 else 0 := by
    split
    · next ht => rw [if_pos (hidle ht).1]
    · exact Nat.zero_le _
  rw [State.uncountedSteps, State.uncountedSteps, hmov]
  cases hm : s.moves with
  | nil =>
    simp only [hm, List.head?_nil, Option.getD_none] at htick hother hidle
    rw [List.tail_nil]
    by_cases hs : s.run = .idle
    · rw [hs] at hother hidle
      rw [hother nofun, if_neg fun ht => (hidle ht).2 rfl, if_pos hs]
      omega
    · have hdefault : defaultMove s.run = .tick := by
        cases hr : s.run with
        | idle => exact absurd hr hs
        | running | halted | faulted => rfl
      rw [htick hdefault]
      omega
  | cons m rest =>
    simp only [hm, List.head?_cons, Option.getD_some] at htick hother
    rw [List.tail_cons]
    by_cases hmove : m = .tick
    · rw [htick hmove, List.filter_cons_of_neg (by simp [hmove])]
      omega
    · rw [hother hmove, List.filter_cons_of_pos (by simp [hmove]), List.length_cons]
      omega

/-- A step from a counter within the ceiling halts the machine or keeps the counter within it (rule R101). -/
theorem step_halted_or_within_ceiling {s t : State} (hs : s.cycles ≤ s.cfg.cycleCeiling)
    (h : step s = .next t) : t.run = .halted ∨ t.cycles ≤ t.cfg.cycleCeiling := by
  cases step_effect h with
  | tick hr he hw =>
    obtain ⟨hcfg, hcyc, -, -⟩ := he.surroundings
    rcases Nat.lt_or_ge s.cfg.cycleCeiling (s.cycles + 1) with hlt | hle
    · exact .inl (hw hlt)
    · exact .inr (by rw [hcfg, hcyc]; exact hle)
  | timer | poke | registerHalt | start => exact .inr hs

/-- A HALTED machine runs no step. -/
theorem run_halted {s t : State} {k : Nat} (hs : s.run = .halted) (h : Sys2Proof.core.run k s = .next t) :
    k = 0 := by
  cases k with
  | zero => rfl
  | succ k =>
    obtain ⟨m, hm⟩ := step_halted hs
    rw [core_run_succ, hm] at h
    cases h

/-- Settles O38, by induction on the number of steps: each counts a cycle or uses up an uncounted step, and the one
that takes the counter past the ceiling is the last. -/
theorem watchdogBoundsEveryRun : Obligations.WatchdogBoundsEveryRun := by
  intro s u k hs h
  rw [Nat.add_assoc (_ + 1), ← State.uncountedSteps]
  induction k generalizing s with
  | zero => omega
  | succ k ih =>
    rw [core_run_succ] at h
    obtain ⟨t, hst, hrun⟩ := andThen_eq_next.1 h
    obtain ⟨hcfg, hcount⟩ := step_count hst
    rcases step_halted_or_within_ceiling hs hst with ht | ht
    · have hk : k = 0 := run_halted ht hrun
      omega
    · have hrest : t.cycles + k ≤ t.cfg.cycleCeiling + 1 + t.uncountedSteps := ih t ht hrun
      rw [hcfg] at hrest
      omega

/-! ### The selection of a source -/

/-- The selected source is the first in the order 0, 1, ..., 7 whose bit is set (rule R193). -/
theorem lowestSource_eq_some {p : Byte} {n : Fin 8} :
    lowestSource p = some n ↔ p.getLsbD n.val = true ∧ ∀ m : Fin 8, m < n → p.getLsbD m.val = false := by
  have hrange : lowestSource p = (List.finRange 8).find? fun i => p.getLsbD i.val := rfl
  rw [hrange, ← Fin.find?_eq_find?_finRange, Fin.find?_eq_some_iff]

/-- Settles O44: the search finds the first set bit in the order of the sources, and finds one unless all are clear. -/
theorem lowestPendingSourceIsSelected : Obligations.LowestPendingSourceIsSelected :=
  ⟨fun _ _ => lowestSource_eq_some, fun _ => lowestSource_eq_none⟩

/-- Settles O48: within the ceiling a tick goes on to the interrupt check, which finds the source. -/
theorem stepTakesThePendingInterrupt : Obligations.StepTakesThePendingInterrupt := by
  intro s n htick hc hset hlower
  have hsource : lowestSource s.ticked.pending = some n := lowestSource_eq_some.2 ⟨hset, hlower⟩
  calc step s = cycleWith exec (s.setMoves s.moves.tail) := step_tick htick
    _ = interruptOrRun exec s.ticked := cycleWith_within_ceiling exec (s := s.setMoves s.moves.tail) hc
    _ = interruptEntry n s.ticked := by rw [interruptOrRun, hsource]

/-! ### Interrupt entry -/

/-- The registers once IM and IS are cleared. -/
theorem clearMaskAndStatus_reg (s : State) (i : Fin 8) :
    (clearMaskAndStatus s).reg i = if i = 5 ∨ i = 6 then 0 else s.reg i := by
  simp only [clearMaskAndStatus, State.setReg_reg]
  split <;> split <;> simp_all [eq_comm]

theorem clearMaskAndStatus_sp (s : State) : (clearMaskAndStatus s).reg 7 = s.reg 7 :=
  clearMaskAndStatus_reg s 7

/-- The bytes that interrupt entry saves: IM and IS are zero by the time they are pushed (rules R194, R199). -/
def State.savedFrame (s : State) : List Byte :=
  [s.pc, s.fl, s.reg 0, s.reg 1, s.reg 2, s.reg 3, s.reg 4, 0, 0]

theorem interruptFrame_clearMaskAndStatus (s : State) :
    interruptFrame (clearMaskAndStatus s) = s.savedFrame := by
  simp only [interruptFrame, clearMaskAndStatus_reg]
  rfl

/-- R0..R4 stand in the saved frame after PC and FL. -/
theorem State.savedFrame_reg (s : State) : ∀ i : Fin 8, i.val < 5 → s.savedFrame[i.val + 2]? = some (s.reg i)
  | 0, _ | 1, _ | 2, _ | 3, _ | 4, _ => rfl

/-- Interrupt entry pushes the saved frame and then reads the vector. -/
theorem interruptEntry_eq (n : Fin 8) (s : State) :
    interruptEntry n s = andThen (pushAll s.savedFrame (clearMaskAndStatus s)) fun t =>
      andThen (memRead (0xF8 + n.val) t) fun v => .next (t.setPc v) := by
  rw [interruptEntry, interruptFrame_clearMaskAndStatus]
  rfl

/-- Pushes that complete were all in range. -/
theorem pushAll_in_range {vs : List Byte} {s t : State} (h : pushAll vs s = .next t) {k : Nat} (h1 : 1 ≤ k)
    (hk : k ≤ vs.length) : (s.reg 7 - BitVec.ofNat 8 k).toNat < s.cfg.memSize := by
  induction vs generalizing s k with
  | nil => exact absurd (h1.trans hk) (by simp)
  | cons v vs ih =>
    obtain ⟨u, hu, h⟩ := andThen_eq_next.1 h
    obtain ⟨hfirst, rfl⟩ := push_eq_next_pushed.1 hu
    match k, h1 with
    | 1, _ => exact hfirst
    | k + 2, _ =>
      rw [← sub_ofNat_succ, ← s.pushed_sp v]
      exact ih h (Nat.succ_pos k) (Nat.le_of_succ_le_succ hk)

section
variable {n : Fin 8} {s : State}

/-- Interrupt entry completes only with the nine cells below SP and the vector cell in range. -/
theorem interruptEntry_in_range {t : State} (h : interruptEntry n s = .next t) :
    (∀ k : Nat, 1 ≤ k → k ≤ 9 → (s.reg 7 - BitVec.ofNat 8 k).toNat < s.cfg.memSize) ∧
      0xF8 + n.val < s.cfg.memSize := by
  rw [interruptEntry_eq] at h
  obtain ⟨u, hu, h⟩ := andThen_eq_next.1 h
  obtain ⟨v, hv, -⟩ := andThen_eq_next.1 h
  obtain ⟨hvector, -⟩ := memRead_eq_next.1 hv
  obtain ⟨⟨⟨hcfg, -⟩, -⟩, -⟩ := pushAll_frame hu
  refine ⟨fun k h1 hk => ?_, hcfg ▸ hvector⟩
  rw [← clearMaskAndStatus_sp]
  exact pushAll_in_range hu h1 hk

section
variable (hr : ∀ k : Nat, 1 ≤ k → k ≤ 9 → (s.reg 7 - BitVec.ofNat 8 k).toNat < s.cfg.memSize)
include hr

/-- With the nine cells below SP and the vector cell in range, interrupt entry completes, with the saved frame in the
nine cells, PC highest, and every other cell as it was. -/
theorem interruptEntry_in (hn : 0xF8 + n.val < s.cfg.memSize) :
    ∃ t, interruptEntry n s = .next t ∧
      (∀ k (hk : k < 9), t.mem.read (s.reg 7 - BitVec.ofNat 8 (k + 1)).toNat = s.savedFrame[k]) ∧
      ∀ addr, (∀ k, 1 ≤ k → k ≤ 9 → addr ≠ (s.reg 7 - BitVec.ofNat 8 k).toNat) →
        t.mem.read addr = s.mem.read addr := by
  rw [← clearMaskAndStatus_sp s] at hr ⊢
  obtain ⟨t, ht, hcells, hothers⟩ := pushAll_in (vs := s.savedFrame) (by decide : 9 ≤ 256) hr
  obtain ⟨⟨⟨hcfg, -⟩, -⟩, -⟩ := pushAll_frame ht
  have hvector : 0xF8 + n.val < t.cfg.memSize := hcfg ▸ hn
  refine ⟨t.setPc (t.mem.read (0xF8 + n.val)), ?_, hcells, hothers⟩
  rw [interruptEntry_eq, ht, andThen_next, memRead_in hvector, andThen_next]

/-- With the nine cells in range and the vector cell not, interrupt entry faults at the vector cell, having written no
register but IM, IS and SP. -/
theorem interruptEntry_vector_out (hn : s.cfg.memSize ≤ 0xF8 + n.val) :
    ∃ u, interruptEntry n s = raise (.outOfBoundsAccess (0xF8 + n.val)) u ∧
      ∀ i : Fin 8, i ≠ 7 → u.reg i = (clearMaskAndStatus s).reg i := by
  rw [← clearMaskAndStatus_sp s] at hr
  obtain ⟨u, hu, -⟩ := pushAll_in (vs := s.savedFrame) (by decide : 9 ≤ 256) hr
  obtain ⟨⟨⟨hcfg, -⟩, -⟩, -, -, -, hregs, -⟩ := pushAll_frame hu
  have hvector : u.cfg.memSize ≤ 0xF8 + n.val := hcfg ▸ hn
  exact ⟨u, by rw [interruptEntry_eq, hu, andThen_next, memRead_out hvector, andThen_raise], hregs⟩

end

/-- Where the `k`-th of the nine cells is the first out of range, interrupt entry faults at it, having written no
register but IM, IS and SP. -/
theorem interruptEntry_push_out {k : Nat} (h1 : 1 ≤ k) (hk : k ≤ 9)
    (hout : s.cfg.memSize ≤ (s.reg 7 - BitVec.ofNat 8 k).toNat)
    (hin : ∀ j : Nat, 1 ≤ j → j < k → (s.reg 7 - BitVec.ofNat 8 j).toNat < s.cfg.memSize) :
    ∃ u, interruptEntry n s = raise (.outOfBoundsAccess (s.reg 7 - BitVec.ofNat 8 k).toNat) u ∧
      ∀ i : Fin 8, i ≠ 7 → u.reg i = (clearMaskAndStatus s).reg i := by
  rw [← clearMaskAndStatus_sp s] at hout hin ⊢
  obtain ⟨u, hu, hregs⟩ := pushAll_fault (vs := s.savedFrame) h1 hk hout hin
  exact ⟨u, by rw [interruptEntry_eq, hu, andThen_raise], hregs⟩

/-- A fault of interrupt entry finds IM and IS already cleared. -/
theorem aborts_cleared {α : Type} {x : Res α} {fault : State → Fault}
    (h : ∃ u, x = raise fault u ∧ ∀ i : Fin 8, i ≠ 7 → u.reg i = (clearMaskAndStatus s).reg i) :
    Aborts x fault fun t => t.im = 0 ∧ t.is = 0 := by
  obtain ⟨u, rfl, hregs⟩ := h
  refine raise_aborts ⟨?_, ?_⟩
  · exact (hregs 5 (by decide)).trans (clearMaskAndStatus_reg s 5)
  · exact (hregs 6 (by decide)).trans (clearMaskAndStatus_reg s 6)

end

/-- Settles O45: the nine pushes leave the saved frame, and the first address out of range, of a push or of the vector
read after them, faults. -/
theorem interruptEntrySavesTheContext : Obligations.InterruptEntrySavesTheContext := by
  refine ⟨fun n s hr hn => ?_, fun n s k h1 hk hout hin => ?_, fun n s hr hn => ?_⟩
  · obtain ⟨t, ht, hcells, hothers⟩ := interruptEntry_in hr hn
    obtain ⟨hrun, hfl, hout, him, his, hsp, hregs, hpc, -⟩ := interruptEntry_frame ht
    exact ⟨t, ht, him, his, hsp, hregs, hfl, hcells 0 (by decide), hcells 1 (by decide), hcells 2 (by decide),
      hcells 3 (by decide), hcells 4 (by decide), hcells 5 (by decide), hcells 6 (by decide), hcells 7 (by decide),
      hcells 8 (by decide), hothers, hpc, hout, hrun⟩
  · exact aborts_cleared (interruptEntry_push_out h1 hk hout hin)
  · exact aborts_cleared (interruptEntry_vector_out hr hn)

/-! ### The return from interrupt entry -/

section
variable {n : Fin 8} {s t : State} (h : interruptEntry n s = .next t)
include h

/-- The SP that interrupt entry leaves is nine lower: `k` steps up from it are `9 - k` steps down from the old one. -/
theorem interruptEntry_sp_add {k : Nat} (hk : k < 9) :
    t.reg 7 + BitVec.ofNat 8 k = s.reg 7 - BitVec.ofNat 8 (9 - k) := by
  obtain ⟨-, -, -, -, -, hsp, -⟩ := interruptEntry_frame h
  rw [hsp]
  exact sub_ofNat_add_ofNat (s.reg 7) hk.le

/-- Above the SP that interrupt entry leaves stands the saved frame, its last byte lowest. -/
theorem interruptEntry_cells {k : Nat} (hk : k < 9) :
    s.savedFrame[8 - k]? = some (t.mem.read (t.reg 7 + BitVec.ofNat 8 k).toNat) := by
  obtain ⟨hr, hvector⟩ := interruptEntry_in_range h
  obtain ⟨t', ht', hcells, -⟩ := interruptEntry_in hr hvector
  cases h.symm.trans ht'
  have hlt : 8 - k < 9 := by omega
  have hdown : 9 - k = 8 - k + 1 := by omega
  rw [interruptEntry_sp_add h hk, hdown, hcells (8 - k) hlt]
  exact List.getElem?_eq_getElem hlt

end

/-- Settles O46: IRET reads the cells above the SP that it finds, where the entry left the saved frame. -/
theorem iretUndoesInterruptEntry : Obligations.IretUndoesInterruptEntry := by
  intro n s t u h hcfg hsp hmem
  obtain ⟨⟨⟨htcfg, -⟩, -⟩, -, -, -, -, htsp, -⟩ := interruptEntry_frame h
  obtain ⟨hr, -⟩ := interruptEntry_in_range h
  have hin (k : Fin 9) : (u.reg 7 + BitVec.ofNat 8 k.val).toNat < u.cfg.memSize := by
    rw [hsp, hcfg, htcfg, interruptEntry_sp_add h k.isLt]
    exact hr (9 - k.val) (by omega) (by omega)
  have hframe {k : Nat} {v : Byte} (hk : k < 9) (hv : s.savedFrame[8 - k]? = some v) :
      u.mem.read (u.reg 7 + BitVec.ofNat 8 k).toNat = v := by
    rw [hsp, hmem ⟨k, hk⟩]
    exact Option.some.inj ((interruptEntry_cells h hk).symm.trans hv)
  obtain ⟨w, hiret, hregs⟩ := exec_iret_completes hin
  refine ⟨u.returned w, hiret, hframe (k := 8) (by decide) rfl, hframe (k := 7) (by decide) rfl, fun i hi => ?_,
    u.returned_reg w 5, ?_, ?_⟩
  · have hindex : 8 - (6 - i.val) = i.val + 2 := by omega
    rw [hregs i (by omega) (by omega)]
    exact hframe (by omega) (hindex ▸ s.savedFrame_reg i hi)
  · rw [hregs 6 (by decide) (by decide)]
    exact hframe (k := 0) (by decide) rfl
  · calc (u.returned w).reg 7 = u.reg 7 + 9 := u.returned_reg w 7
      _ = s.reg 7 - 9 + 9 := by rw [hsp, htsp]
      _ = s.reg 7 := BitVec.sub_add_cancel _ _

/-! ### The timer and `Halt()` -/

/-- Settles O53: the timer's step is IS with bit 0 set, in RUNNING only. -/
theorem timerSetsStatusBitZero : Obligations.TimerSetsStatusBitZero := by
  constructor
  · intro s rest hr hm
    rw [step_eq_perform, hm]
    exact onlyIn_eq_next.2 ⟨hr, rfl⟩
  · intro s rest hr hm
    rw [step_eq_perform, hm]
    exact if_neg hr

/-- `Halt()` leaves no machine RUNNING (rule R204). -/
theorem halt_not_running (s : State) : (halt s).run ≠ .running := by
  by_cases hr : s.run = .running
  · rw [halt_running hr]
    exact nofun
  · rwa [halt_stopped hr]

/-- Settles O60: a second `Halt()` finds no RUNNING machine, and the machine that a first one leaves is HALTED. -/
theorem haltIsImmediateAndIdempotent : Obligations.HaltIsImmediateAndIdempotent := by
  refine ⟨fun s => halt_running, fun s => halt_stopped, fun s => halt_stopped (halt_not_running s), fun s hr => ?_⟩
  rw [halt_running hr]
  exact step_halted rfl

end Sys2Proof.Machine

/-! ### Reset and hazards

The host's moves as steps: each is `onlyIn .idle` of its operation once the move is taken off the schedule. The empty
schedule and the stopped machine, the advance past the top of PC, and words that decode under the default table. -/

namespace Sys2Proof.Machine

/-! ### The move of a step -/

/-- A listed move is made on the machine with the move taken off its schedule. -/
theorem step_listed {s : State} {m : Move} {rest : List Move} (hm : s.moves = m :: rest) :
    step s = perform exec m (s.setMoves rest) := by
  rw [step_eq_perform, hm]
  rfl

/-- Writing the schedule that a machine has leaves the machine as it was. -/
theorem State.setMoves_self {s : State} {ms : List Move} (hm : s.moves = ms) : s.setMoves ms = s := by
  subst hm
  rfl

/-- With no move listed, the default one is made. -/
theorem step_unlisted {s : State} (hm : s.moves = []) : step s = perform exec (defaultMove s.run) s := by
  rw [step_eq_perform, hm, List.tail_nil, State.setMoves_self hm]
  rfl

/-- The default move is a start of an IDLE machine and a tick of any other (rule R235). -/
theorem defaultMove_eq (r : RunState) : defaultMove r = if r = .idle then .start else .tick := by
  cases r <;> rfl

/-- Settles O58: the default move is the one listed on the right, and taking it off leaves the machine as it was. -/
theorem emptyScheduleStartsOrTicks : Obligations.EmptyScheduleStartsOrTicks := by
  intro s hm
  have hlisted : step (s.setMoves [defaultMove s.run]) = perform exec (defaultMove s.run) (s.setMoves []) :=
    step_listed rfl
  rw [← defaultMove_eq, hlisted, State.setMoves_self hm, step_unlisted hm]

/-- Settles O59: neither IDLE nor RUNNING admits the machine's move, whichever it is. -/
theorem stoppedMachineHasNoStep : Obligations.StoppedMachineHasNoStep := by
  intro s hstopped
  have hidle : s.run ≠ .idle := by rcases hstopped with h | h <;> simp [h]
  have hrunning : s.run ≠ .running := by rcases hstopped with h | h <;> simp [h]
  exact ⟨_, (step_eq_perform s).trans (perform_stopped exec _ (s := s.setMoves s.moves.tail) hidle hrunning)⟩

/-! ### The host's moves -/

/-- In the run state that admits it, a move is its operation. -/
theorem onlyIn_in {r : RunState} {m : Move} {x : Res State} {s : State} (h : s.run = r) :
    onlyIn r m x s = x := if_pos h

/-- In every other run state a move is a stuck state (decision D19). -/
theorem onlyIn_out {r : RunState} {m : Move} {x : Res State} {s : State} (h : s.run ≠ r) :
    onlyIn r m x s = .fault (.noStep m s.run) := if_neg h

section
variable {s : State} {rest : List Move}

theorem step_poke {addr : Nat} {v : Byte} (hm : s.moves = .poke addr v :: rest) :
    step s = onlyIn .idle (.poke addr v) (memWrite addr v (s.setMoves rest)) (s.setMoves rest) := step_listed hm

theorem step_registerHalt {k : Callback} (hm : s.moves = .registerHalt k :: rest) :
    step s = onlyIn .idle (.registerHalt k) (.next ((s.setMoves rest).setOnHalt (some k))) (s.setMoves rest) :=
  step_listed hm

theorem step_start (hm : s.moves = .start :: rest) :
    step s = onlyIn .idle .start (startClock (s.setMoves rest)) (s.setMoves rest) := step_listed hm

end

/-- Settles O54: a poke is a write through the memory port, in IDLE only. -/
theorem pokeWritesOneCell : Obligations.PokeWritesOneCell := by
  obtain ⟨-, -, hwrite, -⟩ := memoryPortReadsAndWrites
  refine ⟨fun s addr v rest hidle hm haddr => ?_, fun s addr v rest hidle hm haddr => ?_,
    fun s addr v rest hidle hm => ?_⟩
  · rw [step_poke hm, onlyIn_in (s := s.setMoves rest) hidle]
    exact hwrite (s.setMoves rest) addr v haddr
  · rw [step_poke hm, onlyIn_in (s := s.setMoves rest) hidle, memWrite_out (s := s.setMoves rest) haddr]
    exact raise_aborts rfl
  · rw [step_poke hm]
    exact onlyIn_out (s := s.setMoves rest) hidle

/-- Settles O55: a registration writes the callback, whatever it was, in IDLE only. -/
theorem registrationKeepsTheLastCallback : Obligations.RegistrationKeepsTheLastCallback := by
  constructor
  · intro s k rest hidle hm
    rw [step_registerHalt hm]
    exact onlyIn_in (s := s.setMoves rest) hidle
  · intro s k rest hidle hm
    rw [step_registerHalt hm]
    exact onlyIn_out (s := s.setMoves rest) hidle

/-- Settles O56: a start of a legal configuration writes the run state, in IDLE only. -/
theorem startRunsTheClock : Obligations.StartRunsTheClock := by
  constructor
  · intro s rest hidle hm hlegal
    rw [step_start hm, onlyIn_in (s := s.setMoves rest) hidle]
    exact startClock_eq_next.2 ⟨hlegal, rfl⟩
  · intro s rest hidle hm
    rw [step_start hm]
    exact onlyIn_out (s := s.setMoves rest) hidle

/-- The clock is refused exactly for an illegal configuration (rules R51, R95). -/
theorem startClock_eq_refused {s : State} :
    startClock s = .refused .illegalConfiguration ↔ ¬ s.cfg.Legal := by
  unfold startClock
  split
  · next hlegal => exact ⟨nofun, fun h => absurd hlegal h⟩
  · next hillegal => exact iff_of_true rfl hillegal

/-- Settles O57: the step of a start in IDLE is the clock's, whose refusal is that of the configuration. -/
theorem illegalConfigurationIsRefusedAtStart : Obligations.IllegalConfigurationIsRefusedAtStart := by
  constructor
  · intro s rest hidle hm
    rw [step_start hm, onlyIn_in (s := s.setMoves rest) hidle]
    exact startClock_eq_refused
  · intro c hsize hlegal
    obtain ⟨-, hle, -⟩ := hlegal
    exact Nat.not_le.2 hsize hle

/-! ### The advance past the top -/

section
variable {s : State} {n : Nat} (hpc : 0xFF < s.pc.toNat + 1 + n)
include hpc

/-- An advance past 0xFF faults in the state that it finds, PC as it was (rule R107). -/
theorem advance_aborts {leaves : State → Prop} (h : leaves (s.setRun .faulted)) :
    Aborts (advance n s) (.outOfBoundsAccess (s.pc.toNat + 1 + n)) leaves := by
  rw [advance_out hpc]
  exact raise_aborts h

/-- A register is written before the advance past the top faults. -/
theorem writeReg_advance_aborts (i : Fin 8) (v : Byte) :
    Aborts (andThen (writeReg (regByte i) v s) (advance n)) (.outOfBoundsAccess (s.pc.toNat + 1 + n))
      fun t => t.reg i = v ∧ t.pc = s.pc := by
  rw [writeReg_regByte, andThen_next]
  exact advance_aborts (s := s.setReg i v) hpc ⟨s.setReg_reg_same i v, rfl⟩

/-- A cell in range is written before the advance past the top faults. -/
theorem memWrite_advance_aborts {addr : Nat} (haddr : addr < s.cfg.memSize) (v : Byte) :
    Aborts (andThen (memWrite addr v s) (advance n)) (.outOfBoundsAccess (s.pc.toNat + 1 + n))
      fun t => t.mem.read addr = v ∧ t.pc = s.pc := by
  rw [memWrite_in haddr, andThen_next]
  exact advance_aborts (s := s.setMem (s.mem.write addr v)) hpc ⟨s.mem.read_write_same addr v, rfl⟩

/-- The ALU's result is written before the advance past the top faults: the end that ADD and MUL share. -/
theorem aluOperands_writeReg_advance_aborts {op : AluOp} {i j : Fin 8} {v : Byte}
    (hv : aluCompute op (s.reg i) (s.reg j) = some v) :
    Aborts (andThen (aluOperands op (regByte i) (regByte j) s) fun w => andThen (writeReg (regByte i) w s) (advance n))
      (.outOfBoundsAccess (s.pc.toNat + 1 + n)) fun t => t.reg i = v ∧ t.pc = s.pc := by
  rw [aluOperands_regByte, alu_of_computes s hv, andThen_next]
  exact writeReg_advance_aborts hpc i v

end

/-- A CMP past the top has written FL before the advance faults. -/
theorem exec_cmp_aborts {s : State} (hpc : 0xFF < s.pc.toNat + 3) (i j : Fin 8) :
    Aborts (exec (.cmp (regByte i) (regByte j)) s) (.outOfBoundsAccess (s.pc.toNat + 3))
      fun t => t.fl = compareFlags (s.reg i) (s.reg j) ∧ t.pc = s.pc := by
  rw [exec_cmp, aluOperands_regByte, alu_of_computes s rfl, andThen_next]
  exact advance_aborts (s := s.setFl (compareFlags (s.reg i) (s.reg j))) hpc ⟨rfl, rfl⟩

/-- Three bytes have been fetched, so only the third can be the last that PC can address: two operands at 0xFD. -/
theorem State.InstrAt.advance_past_top {s : State} {i : Instr} (hi : s.InstrAt i) (hsize : s.cfg.memSize ≤ 256)
    (hpc : 0xFF < s.pc.toNat + 1 + i.operandCount) :
    s.pc = 0xFD ∧ s.cfg.memSize = 256 ∧ i.operandCount = 2 := by
  obtain ⟨hfetch, -⟩ := hi
  have hcount : i.operandCount ≤ 2 := i.operandCount_le_two
  have htop : s.pc.toNat = 0xFD := by omega
  exact ⟨BitVec.eq_of_toNat_eq htop, by omega, by omega⟩

/-- Settles O52: the five handlers write first and then advance, and a fetched instruction is at or below 0xFD. -/
theorem advancePastTheTopFaults : Obligations.AdvancePastTheTopFaults := by
  refine ⟨fun s n hpc => advance_aborts hpc rfl, fun s i j b hpc => ⟨?_, ?_, ?_, exec_cmp_aborts hpc i j, ?_⟩,
    fun s i hsize hi hpc => ?_⟩
  · rw [exec_ldi]
    exact writeReg_advance_aborts hpc i b
  · rw [exec_add]
    exact aluOperands_writeReg_advance_aborts hpc (v := s.reg i + s.reg j) rfl
  · rw [exec_mul]
    exact aluOperands_writeReg_advance_aborts hpc (v := s.reg i * s.reg j) rfl
  · intro haddr
    rw [exec_st_regByte]
    exact memWrite_advance_aborts hpc haddr (s.reg j)
  · obtain ⟨htop, hfull, htwo⟩ := hi.advance_past_top hsize hpc
    refine ⟨htop, hfull, htwo, ?_⟩
    rintro rfl
    cases htwo

end Sys2Proof.Machine

/-! ### Words under the default table -/

namespace Sys2Proof

/-- Under the default table each mnemonic's byte decodes to its instruction, which takes the operand bytes it has. -/
theorem decode_default_byte (m : Mnemonic) (a b : Byte) : decode (Opc.default.byte m) a b = .ok (m.instr a b) :=
  decodeWith_eq_ok.2 ⟨m, Opc.lookup_of_legal Opc.default_legal m, rfl⟩

/-- Settles O9: each word begins with its mnemonic's byte of the default table. -/
theorem sampleWordsDecode : Obligations.SampleWordsDecode :=
  ⟨decode_default_byte .ldi 0 8, decode_default_byte .mul 0 1, decode_default_byte .prn 0 1,
    decode_default_byte .hlt 0 0, decode_default_byte .st 2 0, decode_default_byte .cmp 0 2,
    decode_default_byte .push 1 0x99, decode_default_byte .jne 3 1, decode_default_byte .iret 0xFF 0xFF⟩

end Sys2Proof
